-- ==== Sys2Proof/Word.lean ====
section
/-! DEFINITION. The words of the hardware: bytes, 16-bit words, and the names of the general registers and keys.
Every value of the hardware is an unsigned binary number and bit 0 is the least significant bit (00_scope.md R7). -/

namespace Sys2Proof

/-- An 8-bit value: a memory cell, a V register, a timer (10_state.md R21, R26 to R28). -/
abbrev Byte := BitVec 8

/-- A 16-bit value: an instruction word, I, pc, a call-stack entry (10_state.md R23 to R25, 30_encoding.md R90). -/
abbrev Word := BitVec 16

/-- The number of a general register, 0..15; VF is 15 (10_state.md R21). -/
abbrev Reg := Fin 16

/-- The value of a virtual key, 0..15 (10_state.md R30). -/
abbrev Key := Fin 16

/-- VF, register 15, the flag output (10_state.md R22). -/
abbrev vf : Reg := 15

end Sys2Proof
end

