-- ==== Sys2Proof/Config.lean ====
section
/-! DEFINITION. What is fixed for this machine: table P of 00_scope.md R4, and the one free value of the spec, the random draw. -/

namespace Sys2Proof.Config

/-- Bytes of memory, `MEM_SIZE` (table P). -/
abbrev memSize : Nat := 4096

/-- First byte of the font table, `FONT_BASE` (table P). -/
abbrev fontBase : Nat := 0x000

/-- Bytes per glyph, `GLYPH_BYTES` (table P). -/
abbrev glyphBytes : Nat := 5

/-- First byte of the program region and the reset value of pc, `PROG_BASE` (table P, 70_reset_and_hazards.md R280). -/
abbrev progBase : Nat := 0x200

/-- Largest ROM in bytes, `MAX_ROM` (table P). -/
abbrev maxRom : Nat := 3584

/-- Call-stack entries, `STACK_DEPTH` (table P). -/
abbrev stackDepth : Nat := 16

/-- Framebuffer columns, `COLS` (table P). -/
abbrev cols : Nat := 64

/-- Framebuffer rows, `ROWS` (table P). -/
abbrev rows : Nat := 32

/-- Bytes per instruction, `INSTR_BYTES` (table P). -/
abbrev instrBytes : Nat := 2

/-- `QUIRK_LOADSTORE_INC_I` (table P): whether the register dump and load add x + 1 to I. False in this hardware
(42_index_memory.md R176; the spec's decision D4; log 9). -/
abbrev quirkLoadStoreIncI : Bool := false

/-- `QUIRK_SHIFT_USES_VY` (table P): whether SHR and SHL shift Vy. False in this hardware
(41_load_alu.md R149, R151; the spec's decision D5; log 9). -/
abbrev quirkShiftUsesVy : Bool := false

/-- FREE VALUE (log 1). The 8-bit input `rnd` that the `n`-th execution of RND consumes, "supplied from outside the core
for this Step, under no law" (41_load_alu.md R152, 45_step_tick_host.md R229). It has no body: nothing can be proved of
its value, so a statement about RND holds for every draw. DESIGN CHOICE: draws are numbered by `State.draws`. -/
opaque rnd : Nat → Byte

end Sys2Proof.Config
end

