-- ==== Sys2Proof/Machine/State.lean ====
section
/-! DEFINITION. The state of the core (10_state.md R20, table S), the reasons a step can stop, and the state after reset
(10_state.md R35, table Z; 70_reset_and_hazards.md R280). -/

namespace Sys2Proof.Machine

/-- The three fatal errors (60_exceptions.md R250, table X). They are the values of the `fault` register other than NONE; as
the outcome of a step, `fault f` is answered by `Machine.step` for a core that is already halted with `f` in that register
("While `fault != NONE` no Step executes", R258). Safe: the hardware does nothing there either. -/
inductive Fault where
  /-- Code 1. Entered by CALL with 16 live entries (R251); a step of the halted core answers it. Safe. -/
  | stackOverflow
  /-- Code 2. Entered by RET with an empty stack (R252); a step of the halted core answers it. Safe. -/
  | stackUnderflow
  /-- Code 3. Entered by the fetch, DRW, LD B, LD [I] and LD Vx,[I] out of range (R253); a step of the halted core
  answers it. Safe. -/
  | memOutOfRange
  deriving DecidableEq, Repr

/-- Why an instruction has no meaning in this model. No instruction of this model is refused. -/
inductive Refusal where
  /-- An instruction without a meaning yet, refused in its arm of `exec`. Raised by no arm. Safe. -/
  | notModelled (mnemonic : String)
  deriving DecidableEq, Repr

/-- Every piece of state of the core (10_state.md R20, table S) and, last, one field of the model's own. -/
structure State where
  /-- V0..VF (R21, R22). -/
  v : Vector Byte 16
  /-- The index register I (R23). -/
  i : Word
  /-- The program counter (R24). -/
  pc : Word
  /-- The call stack's entries (R25); those at `sp` and above are stale. -/
  stack : Vector Word 16
  /-- The call stack's depth, 0..16 (R25, R38; log 8). -/
  sp : Fin 17
  /-- The delay timer (R26). -/
  dt : Byte
  /-- The sound timer (R27). -/
  st : Byte
  /-- Memory (R28): the cells that differ from their reset contents, by rising address (`Memory.wf`). -/
  mem : List Host.Cell
  /-- The framebuffer, `fb[row][column]`, 32 rows of 64 columns (R29). -/
  fb : Vector (Vector Bool 64) 32
  /-- The 16 key states, true = down (R30). -/
  key : Vector Bool 16
  /-- A render is due (R31). -/
  drawFlag : Bool
  /-- The key-wait suspension flag (R32). -/
  wait : Bool
  /-- The fault register (R33); `none` is NONE (log 4). -/
  fault : Option Fault
  /-- THE MODEL'S OWN: how many draws of `rnd` have been consumed, the number of the next one (log 1). -/
  draws : Nat
  deriving DecidableEq, Repr

/-- The machine right after reset: table Z of 10_state.md R35. The stack's entries, which table Z leaves unspecified and
lets a model take as 0, are 0 (DESIGN CHOICE, log 2), and so is the model's own draw number (DESIGN CHOICE, log 1). -/
def State.reset : State where
  v := Vector.replicate 16 0x00#8
  i := 0x0000#16
  pc := 0x0200#16
  stack := Vector.replicate 16 0x0000#16
  sp := 0
  dt := 0x00#8
  st := 0x00#8
  mem := []
  fb := Vector.replicate 32 (Vector.replicate 64 false)
  key := Vector.replicate 16 false
  drawFlag := false
  wait := false
  fault := none
  draws := 0

end Sys2Proof.Machine
end

