-- ==== Sys2Proof/Machine/Memory.lean ====
section
/-! DEFINITION. The 4096 cells of memory as a sorted list of those that differ from their reset contents
(20_memory.md R60 to R64, 10_state.md R28). Addresses are natural numbers, never reduced (R64). -/

namespace Sys2Proof.Machine

/-- Table F of 20_memory.md R62: glyphs 0 to 7 of the font. -/
def fontLow : List Byte := [
  0xF0, 0x90, 0x90, 0x90, 0xF0,
  0x20, 0x60, 0x20, 0x20, 0x70,
  0xF0, 0x10, 0xF0, 0x80, 0xF0,
  0xF0, 0x10, 0xF0, 0x10, 0xF0,
  0x90, 0x90, 0xF0, 0x10, 0x10,
  0xF0, 0x80, 0xF0, 0x10, 0xF0,
  0xF0, 0x80, 0xF0, 0x90, 0xF0,
  0xF0, 0x10, 0x20, 0x40, 0x40]

/-- Table F of 20_memory.md R62: glyphs 8 to F of the font. -/
def fontHigh : List Byte := [
  0xF0, 0x90, 0xF0, 0x90, 0xF0,
  0xF0, 0x90, 0xF0, 0x10, 0xF0,
  0xF0, 0x90, 0xF0, 0x90, 0x90,
  0xE0, 0x90, 0xE0, 0x90, 0xE0,
  0xF0, 0x80, 0x80, 0x80, 0xF0,
  0xE0, 0x90, 0x90, 0x90, 0xE0,
  0xF0, 0x80, 0xF0, 0x80, 0xF0,
  0xF0, 0x80, 0xF0, 0x80, 0x80]

/-- The 80 font bytes (R62; the spec marks them as the standard CHIP-8 set, log 7). -/
def fontTable : List Byte := fontLow ++ fontHigh

/-- What an unlisted address reads as: the reset contents, the font from `FONT_BASE` = 0 on and zero elsewhere
(10_state.md R35, table Z; log 7). -/
def Memory.initial (a : Nat) : Byte := (fontTable[a - Config.fontBase]?).getD 0x00#8

/-- The byte at `a`. -/
def Memory.get : List Host.Cell → Nat → Byte
  | [], a => Memory.initial a
  | (k, b) :: m, a => if k = a then b else Memory.get m a

/-- Insert a cell before the first one at a higher address. -/
def Memory.insert : List Host.Cell → Nat → Byte → List Host.Cell
  | [], a, b => [(a, b)]
  | (k, c) :: m, a, b => if a < k then (a, b) :: (k, c) :: m else (k, c) :: Memory.insert m a b

/-- Make the byte at `a` be `b`: any entry of `a` goes, and a new one comes unless `b` is the reset contents. -/
def Memory.put (m : List Host.Cell) (a : Nat) (b : Byte) : List Host.Cell :=
  let others := m.filter (fun c => c.1 != a)
  if b = Memory.initial a then others else Memory.insert others a b

/-- Make the bytes from `a` on be `bs`, at ascending addresses (20_memory.md R66). -/
def Memory.putAll (m : List Host.Cell) (a : Nat) : List Byte → List Host.Cell
  | [] => m
  | b :: bs => Memory.putAll (Memory.put m a b) (a + 1) bs

/-- The `count` bytes from `a` on, at ascending addresses (20_memory.md R66). -/
def Memory.getAll (m : List Host.Cell) (a : Nat) : Nat → List Byte
  | 0 => []
  | count + 1 => Memory.get m a :: Memory.getAll m (a + 1) count

/-- The canonical form from address `lo` on: rising addresses below 4096, no entry equal to the reset contents. -/
def Memory.wfFrom (lo : Nat) : List Host.Cell → Bool
  | [] => true
  | (a, b) :: m => decide (lo ≤ a) && decide (a < Config.memSize) && (b != Memory.initial a) && Memory.wfFrom (a + 1) m

/-- The list is in canonical form. -/
def Memory.wf (m : List Host.Cell) : Bool := Memory.wfFrom 0 m

/-- Every one of the `count` addresses `a`, ..., `a + count - 1` exists, that is, lies below 4096; no addresses are all in
range (20_memory.md R63, R68; 43_display.md R192 "n > 0 and"). -/
def inRange (a count : Nat) : Bool := count == 0 || decide (a + (count - 1) < Config.memSize)

end Sys2Proof.Machine
end

