-- ==== Sys2Proof/Machine/Ops.lean ====
section
/-! DEFINITION. The named operations over the state: registers, memory, stack, framebuffer, keys, timers, moving the pc, and
taking a fault. There is no return from a fault (60_exceptions.md R258), so none stands beside it. -/

namespace Sys2Proof.Machine

/-- The outcome of an instruction or a step. -/
abbrev Result := Host.Outcome State Fault Refusal

/-! ### Registers -/

/-- `V[r]` (10_state.md R21). -/
def State.readV (s : State) (r : Reg) : Byte := s.v[r.val]

/-- `V[r] <- b` (10_state.md R21). -/
def State.writeV (s : State) (r : Reg) (b : Byte) : State := { s with v := s.v.set r.val b }

/-- `I <- w` (10_state.md R23). -/
def State.writeI (s : State) (w : Word) : State := { s with i := w }

/-- Overwrite the registers from number `k` on with `bs`, ascending (42_index_memory.md R175). -/
def fillV (v : Vector Byte 16) (k : Nat) : List Byte → Vector Byte 16
  | [] => v
  | b :: bs => fillV (v.setIfInBounds k b) (k + 1) bs

/-! ### The program counter (40_control.md R120) -/

/-- `pc <- (pc + 2) mod 65536`: an instruction that does not transfer control. -/
def State.advance (s : State) : State := { s with pc := s.pc + 2 }

/-- A skip: `pc + 4` when taken, `pc + 2` when not. -/
def State.skipIf (s : State) (taken : Bool) : State := { s with pc := s.pc + (if taken then 4 else 2) }

/-- `pc <- target`, used as it is (R120 (c)). -/
def State.jump (s : State) (target : Word) : State := { s with pc := target }

/-! ### Faults -/

/-- `raise F` (60_exceptions.md R257): `fault <- F` is the only state change; pc keeps the address of the faulting
instruction, nothing is saved and there is no handler. The step after this one finds the core halted (log 4). -/
def raise (f : Fault) (s : State) : Result := .next { s with fault := some f }

/-! ### Memory -/

/-- The byte at `a` as a plain read of `mem[a]`. -/
def State.byteAt (s : State) (a : Nat) : Byte := Memory.get s.mem a

/-- The reads of a multi-byte instruction: `count` bytes from `a` on, or nothing when one of the addresses is out of range
(20_memory.md R63, R66, R68). -/
def State.load (s : State) (a count : Nat) : Option (List Byte) :=
  if inRange a count then some (Memory.getAll s.mem a count) else none

/-- The writes of a multi-byte instruction: `bs` from `a` on, or nothing when one of the addresses is out of range: the
range is checked before any cell changes (20_memory.md R63, R66, R68). -/
def State.store (s : State) (a : Nat) (bs : List Byte) : Option State :=
  if inRange a bs.length then some { s with mem := Memory.putAll s.mem a bs } else none

/-! ### The call stack (10_state.md R25) -/

/-- Push a return address and go to `target`, or nothing when 16 entries are live (40_control.md R124). -/
def State.push (s : State) (ret : Word) : Option State :=
  if h : s.sp.val < 16 then
    some { s with stack := s.stack.set s.sp.val ret, sp := ⟨s.sp.val + 1, by omega⟩ }
  else none

/-- Pop the top entry: the popped address and the state after, or nothing when the stack is empty. The entry is not erased
(40_control.md R122). -/
def State.pop (s : State) : Option (Word × State) :=
  if h : s.sp.val = 0 then none
  else
    let top : Fin 17 := ⟨s.sp.val - 1, by omega⟩
    some (s.stack[s.sp.val - 1], { s with sp := top })

/-! ### The framebuffer (43_display.md R190) -/

/-- `fb[r][c]`. -/
def State.pixel (s : State) (r : Fin 32) (c : Fin 64) : Bool := s.fb[r.val][c.val]

/-- XOR one bit of the framebuffer with 1. -/
def togglePixel (fb : Vector (Vector Bool 64) 32) (r : Fin 32) (c : Fin 64) : Vector (Vector Bool 64) 32 :=
  fb.set r.val (fb[r.val].set c.val (!fb[r.val][c.val]))

/-- Every bit 0: the full clear of CLS (R191). -/
def blankScreen : Vector (Vector Bool 64) 32 := Vector.replicate 32 (Vector.replicate 64 false)

/-- What DRW carries from pixel to pixel (R192): the framebuffer so far, and whether a bit went from 1 to 0. -/
structure Canvas where
  fb : Vector (Vector Bool 64) 32
  collision : Bool
  deriving DecidableEq, Repr

/-- XOR-plot one set sprite bit at (column `cx`, row `cy`), both wrapped (R190, R192). -/
def plotPixel (cx cy : Nat) (p : Canvas) : Canvas :=
  let r := Fin.ofNat 32 cy
  let c := Fin.ofNat 64 cx
  { fb := togglePixel p.fb r c, collision := p.collision || p.fb[r.val][c.val] }

/-- Whether column `col` of a sprite byte is set: bit 7 is the leftmost (R192). -/
def spriteBit (b : Byte) (col : Nat) : Bool := b.getLsbD (7 - col)

/-- Plot one sprite byte with its left edge at `x0` in row `cy`, columns ascending (R192). -/
def plotByte (x0 cy : Nat) (b : Byte) (p : Canvas) : Canvas :=
  (List.range 8).foldl (fun p col => if spriteBit b col then plotPixel (x0 + col) cy p else p) p

/-- Plot a sprite, one byte a row, rows ascending from `cy` (R192). -/
def plotSprite (x0 cy : Nat) : List Byte → Canvas → Canvas
  | [], p => p
  | b :: bs, p => plotSprite x0 (cy + 1) bs (plotByte x0 cy b p)

/-! ### Keys (44_keypad_timers.md R206) -/

/-- Key `k` is down. -/
def State.keyDown (s : State) (k : Key) : Bool := s.key[k.val]

/-- The smallest key from `k` on that is down, looking at `fuel` keys (R202). -/
def lowestDownFrom (keys : Vector Bool 16) (k : Nat) : Nat → Option Nat
  | 0 => none
  | fuel + 1 => if (keys[k]?).getD false then some k else lowestDownFrom keys (k + 1) fuel

/-- The smallest key that is down (R202). -/
def lowestDown (keys : Vector Bool 16) : Option Nat := lowestDownFrom keys 0 16

/-! ### Timers (45_step_tick_host.md R223) -/

/-- One count down, "floor at 0, never negative". -/
def age (t : Byte) : Byte := if t = 0x00#8 then 0x00#8 else t - 1

/-- Timer ageing at the end of a Tick that does not fault. -/
def State.ageTimers (s : State) : State := { s with dt := age s.dt, st := age s.st }

/-! ### The random input (45_step_tick_host.md R229) -/

/-- The draw that this execution of RND consumes (a free value, log 1). -/
def State.draw (s : State) : Byte := Config.rnd s.draws

/-- The next draw is another one. -/
def State.afterDraw (s : State) : State := { s with draws := s.draws + 1 }

end Sys2Proof.Machine
end

