-- ==== Sys2Proof/Machine/Operands.lean ====
section
/-! DEFINITION. The operand forms: zero-extended immediates (30_encoding.md R93), the operand of the shifts, the key and glyph
selectors, the effective address `I + k` (20_memory.md R64) and the digits and registers that go to memory. -/

namespace Sys2Proof.Machine

/-- `zext_16(nnn)` (30_encoding.md R93). -/
def zextAddr (nnn : BitVec 12) : Word := nnn.setWidth 16

/-- `zext_16` of a byte (42_index_memory.md R171, 40_control.md R129). -/
def zextByte (b : Byte) : Word := b.setWidth 16

/-- The address an access through I starts at, a natural number that is never reduced (20_memory.md R64). -/
def State.indexAddress (s : State) : Nat := s.i.toNat

/-- The number of registers of a dump or load: V0..Vx inclusive (42_index_memory.md R174, R175). -/
def registerCount (x : Reg) : Nat := x.val + 1

/-- The operand of SHR and SHL: Vx in this hardware (`QUIRK_SHIFT_USES_VY` = false, 41_load_alu.md R149, R151; log 9). -/
def State.shiftOperand (s : State) (x y : Reg) : Byte :=
  if Config.quirkShiftUsesVy then s.readV y else s.readV x

/-- The key that `V[x]` selects, `V[x] & 0x0F` (44_keypad_timers.md R200). -/
def selectedKey (b : Byte) : Key := Fin.ofNat 16 b.toNat

/-- The address of the glyph that `V[x]` selects, `FONT_BASE + 5 * (V[x] & 0x0F)` (42_index_memory.md R172). -/
def glyphAddress (b : Byte) : Word :=
  BitVec.ofNat 16 (Config.fontBase + Config.glyphBytes * (b &&& 0x0F#8).toNat)

/-- The hundreds, tens and ones digits of a byte, in the order they go to memory (42_index_memory.md R173). -/
def bcdDigits (b : Byte) : List Byte :=
  [BitVec.ofNat 8 (b.toNat / 100), BitVec.ofNat 8 (b.toNat / 10 % 10), BitVec.ofNat 8 (b.toNat % 10)]

/-- V0 to Vx, ascending: what the register dump stores (42_index_memory.md R174). -/
def State.dumpBytes (s : State) (x : Reg) : List Byte := s.v.toList.take (registerCount x)

/-- I after a dump or load of V0..Vx: unchanged in this hardware (`QUIRK_LOADSTORE_INC_I` = false); with the parameter true
it would be `(I + x + 1) mod 65536` (42_index_memory.md R176; log 9). -/
def indexAfterBlock (i : Word) (x : Reg) : Word :=
  if Config.quirkLoadStoreIncI then i + BitVec.ofNat 16 (registerCount x) else i

end Sys2Proof.Machine
end

