-- ==== Sys2Proof/Machine/Flags.lean ====
section
/-! DEFINITION. The flag values VF takes (10_state.md R22, 41_load_alu.md R140, R147 to R151, 43_display.md R192), and the one
order of writes that the flag-setting instructions share. -/

namespace Sys2Proof.Machine

/-- A flag as the byte VF takes: 0 or 1. -/
def flagByte (set : Bool) : Byte := if set then 0x01#8 else 0x00#8

/-- Carry out of bit 7 (41_load_alu.md R147): the exact sum is above 255. -/
def carryFlag (a b : Byte) : Bool := decide (a.toNat + b.toNat > 255)

/-- No borrow (41_load_alu.md R148, R150): minuend `a` at least subtrahend `b`. -/
def noBorrowFlag (a b : Byte) : Bool := decide (a.toNat ≥ b.toNat)

/-- The bit shifted out to the right (41_load_alu.md R149). -/
def shiftedOutRight (a : Byte) : Bool := a.getLsbD 0

/-- The bit shifted out to the left (41_load_alu.md R151). -/
def shiftedOutLeft (a : Byte) : Bool := a.getLsbD 7

/-- "write destination → write VF (if destination ≠ VF, else VF write wins)" (41_load_alu.md R140, steps 4 and 5). -/
def State.writeResultAndFlag (s : State) (x : Reg) (val : Byte) (flag : Bool) : State :=
  (s.writeV x val).writeV vf (flagByte flag)

end Sys2Proof.Machine
end

