-- ==== Sys2Proof/Machine/Control.lean ====
section
/-! DEFINITION. Control flow: SYS, RET, JP, CALL, SE, SNE, JP V0 (40_control.md). -/

namespace Sys2Proof.Machine

/-- `SYS nnn` (R121): a no-op; `nnn` is not used. -/
def execSys (_nnn : BitVec 12) (s : State) : Result := .next s.advance

/-- `RET` (R122): underflow on an empty stack, else the popped address as it is. -/
def execRet (s : State) : Result :=
  match s.pop with
  | none => raise .stackUnderflow s
  | some (ret, s') => .next (s'.jump ret)

/-- `JP nnn` (R123). -/
def execJp (nnn : BitVec 12) (s : State) : Result := .next (s.jump (zextAddr nnn))

/-- `CALL nnn` (R124): overflow with 16 live entries, else push the return address `pc + 2` and go to `nnn`. -/
def execCall (nnn : BitVec 12) (s : State) : Result :=
  match s.push (s.pc + 2) with
  | none => raise .stackOverflow s
  | some s' => .next (s'.jump (zextAddr nnn))

/-- `SE Vx, kk` (R125). -/
def execSeVxKk (x : Reg) (kk : Byte) (s : State) : Result := .next (s.skipIf (s.readV x == kk))

/-- `SNE Vx, kk` (R126). -/
def execSneVxKk (x : Reg) (kk : Byte) (s : State) : Result := .next (s.skipIf (s.readV x != kk))

/-- `SE Vx, Vy` (R127). -/
def execSeVxVy (x y : Reg) (s : State) : Result := .next (s.skipIf (s.readV x == s.readV y))

/-- `SNE Vx, Vy` (R128). -/
def execSneVxVy (x y : Reg) (s : State) : Result := .next (s.skipIf (s.readV x != s.readV y))

/-- `JP V0, nnn` (R129): always V0, and the sum is not masked to 12 bits. -/
def execJpV0Nnn (nnn : BitVec 12) (s : State) : Result :=
  .next (s.jump (zextAddr nnn + zextByte (s.readV 0)))

end Sys2Proof.Machine
end

