-- ==== Sys2Proof/Machine/Display.lean ====
section
/-! DEFINITION. The display: CLS and DRW (43_display.md). -/

namespace Sys2Proof.Machine

/-- `CLS` (R191): every bit 0, and the draw flag set; VF is not written. -/
def execCls (s : State) : Result := .next { s with fb := blankScreen, drawFlag := true }.advance

/-- `DRW Vx, Vy, n` (R192): the coordinates are read before VF is written, the range is checked before any plot, VF is the
last register written, and the draw flag is set even by a sprite that plots nothing. -/
def execDrw (x y : Reg) (n : BitVec 4) (s : State) : Result :=
  match s.load s.indexAddress n.toNat with
  | none => raise .memOutOfRange s
  | some sprite =>
    let p := plotSprite (s.readV x).toNat (s.readV y).toNat sprite { fb := s.fb, collision := false }
    .next ({ s with fb := p.fb, drawFlag := true }.writeV vf (flagByte p.collision)).advance

end Sys2Proof.Machine
end

