-- ==== Sys2Proof/Machine/IndexMemory.lean ====
section
/-! DEFINITION. The index register and memory (42_index_memory.md). -/

namespace Sys2Proof.Machine

/-- `LD I, nnn` (R170). -/
def execLdINnn (nnn : BitVec 12) (s : State) : Result := .next (s.writeI (zextAddr nnn)).advance

/-- `ADD I, Vx` (R171): mod 65536, not masked to 12 bits; VF is not written. -/
def execAddIVx (x : Reg) (s : State) : Result := .next (s.writeI (s.i + zextByte (s.readV x))).advance

/-- `LD F, Vx` (R172): only the low nibble of Vx selects the glyph. -/
def execLdFVx (x : Reg) (s : State) : Result := .next (s.writeI (glyphAddress (s.readV x))).advance

/-- `LD B, Vx` (R173): hundreds, tens, ones to I, I+1, I+2. -/
def execLdBVx (x : Reg) (s : State) : Result :=
  match s.store s.indexAddress (bcdDigits (s.readV x)) with
  | none => raise .memOutOfRange s
  | some s' => .next s'.advance

/-- `LD [I], Vx` (R174): V0..Vx to memory from I on; I as R176 says. -/
def execLdIndVx (x : Reg) (s : State) : Result :=
  match s.store s.indexAddress (s.dumpBytes x) with
  | none => raise .memOutOfRange s
  | some s' => .next (s'.writeI (indexAfterBlock s.i x)).advance

/-- `LD Vx, [I]` (R175): memory from I on to V0..Vx; I as R176 says. -/
def execLdVxInd (x : Reg) (s : State) : Result :=
  match s.load s.indexAddress (registerCount x) with
  | none => raise .memOutOfRange s
  | some bs => .next ({ s with v := fillV s.v 0 bs }.writeI (indexAfterBlock s.i x)).advance

end Sys2Proof.Machine
end

