-- ==== Sys2Proof/Machine/KeypadTimers.lean ====
section
/-! DEFINITION. The keypad and the timers (44_keypad_timers.md). -/

namespace Sys2Proof.Machine

/-- `SKP Vx` (R200). -/
def execSkpVx (x : Reg) (s : State) : Result := .next (s.skipIf (s.keyDown (selectedKey (s.readV x))))

/-- `SKNP Vx` (R201). -/
def execSknpVx (x : Reg) (s : State) : Result := .next (s.skipIf (!s.keyDown (selectedKey (s.readV x))))

/-- `LD Vx, DT` (R203). -/
def execLdVxDt (x : Reg) (s : State) : Result := .next (s.writeV x s.dt).advance

/-- `LD Vx, K` (R202): the smallest key that is down goes into Vx; with none down the suspension flag is set and pc stays. -/
def execLdVxK (x : Reg) (s : State) : Result :=
  match lowestDown s.key with
  | some k => .next { (s.writeV x (BitVec.ofNat 8 k)) with wait := false }.advance
  | none => .next { s with wait := true }

/-- `LD DT, Vx` (R204). -/
def execLdDtVx (x : Reg) (s : State) : Result := .next { s with dt := s.readV x }.advance

/-- `LD ST, Vx` (R205). -/
def execLdStVx (x : Reg) (s : State) : Result := .next { s with st := s.readV x }.advance

end Sys2Proof.Machine
end

