-- ==== Sys2Proof/Machine/LoadAlu.lean ====
section
/-! DEFINITION. Register load, arithmetic, logic, shift and random (41_load_alu.md). Both operands are read from the state
before the instruction; the flag-setting instructions write VF last (R140). -/

namespace Sys2Proof.Machine

/-- `LD Vx, kk` (R141). -/
def execLdVxKk (x : Reg) (kk : Byte) (s : State) : Result := .next (s.writeV x kk).advance

/-- `ADD Vx, kk` (R142): wraps mod 256; VF is not written. -/
def execAddVxKk (x : Reg) (kk : Byte) (s : State) : Result := .next (s.writeV x (s.readV x + kk)).advance

/-- `LD Vx, Vy` (R143). -/
def execLdVxVy (x y : Reg) (s : State) : Result := .next (s.writeV x (s.readV y)).advance

/-- `OR Vx, Vy` (R144): VF is not reset. -/
def execOrVxVy (x y : Reg) (s : State) : Result := .next (s.writeV x (s.readV x ||| s.readV y)).advance

/-- `AND Vx, Vy` (R145): VF is not reset. -/
def execAndVxVy (x y : Reg) (s : State) : Result := .next (s.writeV x (s.readV x &&& s.readV y)).advance

/-- `XOR Vx, Vy` (R146): VF is not reset. -/
def execXorVxVy (x y : Reg) (s : State) : Result := .next (s.writeV x (s.readV x ^^^ s.readV y)).advance

/-- `ADD Vx, Vy` (R147): VF is the carry. -/
def execAddVxVy (x y : Reg) (s : State) : Result :=
  let a := s.readV x
  let b := s.readV y
  .next (s.writeResultAndFlag x (a + b) (carryFlag a b)).advance

/-- `SUB Vx, Vy` (R148): VF is 1 when there is no borrow. -/
def execSubVxVy (x y : Reg) (s : State) : Result :=
  let a := s.readV x
  let b := s.readV y
  .next (s.writeResultAndFlag x (a - b) (noBorrowFlag a b)).advance

/-- `SHR Vx` (R149): VF is the old bit 0. -/
def execShrVx (x y : Reg) (s : State) : Result :=
  let a := s.shiftOperand x y
  .next (s.writeResultAndFlag x (a >>> 1) (shiftedOutRight a)).advance

/-- `SUBN Vx, Vy` (R150): Vy is the minuend. -/
def execSubnVxVy (x y : Reg) (s : State) : Result :=
  let a := s.readV x
  let b := s.readV y
  .next (s.writeResultAndFlag x (b - a) (noBorrowFlag b a)).advance

/-- `SHL Vx` (R151): VF is the old bit 7. -/
def execShlVx (x y : Reg) (s : State) : Result :=
  let a := s.shiftOperand x y
  .next (s.writeResultAndFlag x (a <<< 1) (shiftedOutLeft a)).advance

/-- `RND Vx, kk` (R152): the draw of this execution, a free value (log 1), ANDed with `kk`. -/
def execRndVxKk (x : Reg) (kk : Byte) (s : State) : Result :=
  .next (s.writeV x (s.draw &&& kk)).afterDraw.advance

end Sys2Proof.Machine
end

