-- ==== Sys2Proof/Syntax.lean ====
section
/-! DEFINITION. The 35 instructions, one constructor per row of table O (30_encoding.md R102) in its order.
Operands are those the mnemonic may be written with (30_encoding.md R104): SYS keeps its ignored `nnn`, SHR and SHL their
ignored `y` ("decoded but not used", R103). The nibbles that no operand of the syntax names (x of CLS and RET, n of SE and SNE on
two registers) are dropped (log 6). -/

namespace Sys2Proof

inductive Instr where
  /-- `CLS` (0-E0), 43_display.md R191. -/
  | cls
  /-- `RET` (0-EE), 40_control.md R122. -/
  | ret
  /-- `SYS nnn` (0nnn), 40_control.md R121. -/
  | sys (nnn : BitVec 12)
  /-- `JP nnn` (1nnn), 40_control.md R123. -/
  | jp (nnn : BitVec 12)
  /-- `CALL nnn` (2nnn), 40_control.md R124. -/
  | call (nnn : BitVec 12)
  /-- `SE Vx, kk` (3xkk), 40_control.md R125. -/
  | seVxKk (x : Reg) (kk : Byte)
  /-- `SNE Vx, kk` (4xkk), 40_control.md R126. -/
  | sneVxKk (x : Reg) (kk : Byte)
  /-- `SE Vx, Vy` (5xy-), 40_control.md R127. -/
  | seVxVy (x y : Reg)
  /-- `LD Vx, kk` (6xkk), 41_load_alu.md R141. -/
  | ldVxKk (x : Reg) (kk : Byte)
  /-- `ADD Vx, kk` (7xkk), 41_load_alu.md R142. -/
  | addVxKk (x : Reg) (kk : Byte)
  /-- `LD Vx, Vy` (8xy0), 41_load_alu.md R143. -/
  | ldVxVy (x y : Reg)
  /-- `OR Vx, Vy` (8xy1), 41_load_alu.md R144. -/
  | orVxVy (x y : Reg)
  /-- `AND Vx, Vy` (8xy2), 41_load_alu.md R145. -/
  | andVxVy (x y : Reg)
  /-- `XOR Vx, Vy` (8xy3), 41_load_alu.md R146. -/
  | xorVxVy (x y : Reg)
  /-- `ADD Vx, Vy` (8xy4), 41_load_alu.md R147. -/
  | addVxVy (x y : Reg)
  /-- `SUB Vx, Vy` (8xy5), 41_load_alu.md R148. -/
  | subVxVy (x y : Reg)
  /-- `SHR Vx` or `SHR Vx, Vy` (8xy6), 41_load_alu.md R149. -/
  | shrVx (x y : Reg)
  /-- `SUBN Vx, Vy` (8xy7), 41_load_alu.md R150. -/
  | subnVxVy (x y : Reg)
  /-- `SHL Vx` or `SHL Vx, Vy` (8xyE), 41_load_alu.md R151. -/
  | shlVx (x y : Reg)
  /-- `SNE Vx, Vy` (9xy-), 40_control.md R128. -/
  | sneVxVy (x y : Reg)
  /-- `LD I, nnn` (Annn), 42_index_memory.md R170. -/
  | ldINnn (nnn : BitVec 12)
  /-- `JP V0, nnn` (Bnnn), 40_control.md R129. -/
  | jpV0Nnn (nnn : BitVec 12)
  /-- `RND Vx, kk` (Cxkk), 41_load_alu.md R152. -/
  | rndVxKk (x : Reg) (kk : Byte)
  /-- `DRW Vx, Vy, n` (Dxyn), 43_display.md R192. -/
  | drw (x y : Reg) (n : BitVec 4)
  /-- `SKP Vx` (Ex9E), 44_keypad_timers.md R200. -/
  | skpVx (x : Reg)
  /-- `SKNP Vx` (ExA1), 44_keypad_timers.md R201. -/
  | sknpVx (x : Reg)
  /-- `LD Vx, DT` (Fx07), 44_keypad_timers.md R203. -/
  | ldVxDt (x : Reg)
  /-- `LD Vx, K` (Fx0A), 44_keypad_timers.md R202. -/
  | ldVxK (x : Reg)
  /-- `LD DT, Vx` (Fx15), 44_keypad_timers.md R204. -/
  | ldDtVx (x : Reg)
  /-- `LD ST, Vx` (Fx18), 44_keypad_timers.md R205. -/
  | ldStVx (x : Reg)
  /-- `ADD I, Vx` (Fx1E), 42_index_memory.md R171. -/
  | addIVx (x : Reg)
  /-- `LD F, Vx` (Fx29), 42_index_memory.md R172. -/
  | ldFVx (x : Reg)
  /-- `LD B, Vx` (Fx33), 42_index_memory.md R173. -/
  | ldBVx (x : Reg)
  /-- `LD [I], Vx` (Fx55), 42_index_memory.md R174. -/
  | ldIndVx (x : Reg)
  /-- `LD Vx, [I]` (Fx65), 42_index_memory.md R175. -/
  | ldVxInd (x : Reg)
  deriving DecidableEq, Repr

end Sys2Proof
end

