-- ==== Sys2Proof/WellFormed.lean ====
section
/-! DEFINITION. Which instruction terms have an encoding. The operand types already bound every field
(30_encoding.md R93); the one check left is SYS, whose `nnn` must not end in the keys of CLS and RET (30_encoding.md R95). -/

namespace Sys2Proof

/-- "every other `kk` is `SYS nnn`" (30_encoding.md R95): the low byte of SYS's operand is neither 0xE0 nor 0xEE. -/
def sysOperandOk (nnn : BitVec 12) : Bool :=
  nnn.setWidth 8 != 0xE0#8 && nnn.setWidth 8 != 0xEE#8

/-- The instruction has an encoding. -/
def Instr.wf : Instr → Bool
  | .cls => true
  | .ret => true
  | .sys nnn => sysOperandOk nnn
  | .jp _ => true
  | .call _ => true
  | .seVxKk _ _ => true
  | .sneVxKk _ _ => true
  | .seVxVy _ _ => true
  | .ldVxKk _ _ => true
  | .addVxKk _ _ => true
  | .ldVxVy _ _ => true
  | .orVxVy _ _ => true
  | .andVxVy _ _ => true
  | .xorVxVy _ _ => true
  | .addVxVy _ _ => true
  | .subVxVy _ _ => true
  | .shrVx _ _ => true
  | .subnVxVy _ _ => true
  | .shlVx _ _ => true
  | .sneVxVy _ _ => true
  | .ldINnn _ => true
  | .jpV0Nnn _ => true
  | .rndVxKk _ _ => true
  | .drw _ _ _ => true
  | .skpVx _ => true
  | .sknpVx _ => true
  | .ldVxDt _ => true
  | .ldVxK _ => true
  | .ldDtVx _ => true
  | .ldStVx _ => true
  | .addIVx _ => true
  | .ldFVx _ => true
  | .ldBVx _ => true
  | .ldIndVx _ => true
  | .ldVxInd _ => true

end Sys2Proof
end

