-- ==== Sys2Proof/Decode.lean ====
section
/-! DEFINITION. From bytes to instructions and back: the fields of the instruction word (30_encoding.md R91), the two-level
dispatch (R94 to R99), the encoder, and the opcode map of table O (R102) as rows of mask and match. -/

namespace Sys2Proof

/-- Why a word or a byte string is no instruction. The first three are the unrecognised words of 30_encoding.md R101, which
the core executes as no-ops (R100). -/
inductive DecodeReject where
  /-- op = 8 with a key `n` of no instruction (R96). -/
  | unrecognisedGroup8 (w : Word)
  /-- op = 0xE with a key `kk` of no instruction (R97). -/
  | unrecognisedGroupE (w : Word)
  /-- op = 0xF with a key `kk` of no instruction (R98). -/
  | unrecognisedGroupF (w : Word)
  /-- Fewer than the two bytes of an instruction (R90). -/
  | tooFewBytes (available : Nat)
  deriving DecidableEq, Repr

/-! ### Fields, table D of R91 -/

/-- `op`, w[15:12], the primary dispatch key. -/
def opField (w : Word) : BitVec 4 := w.extractLsb' 12 4

/-- `x`, w[11:8], the register number of Vx. -/
def xField (w : Word) : Reg := (w.extractLsb' 8 4).toFin

/-- `y`, w[7:4], the register number of Vy. -/
def yField (w : Word) : Reg := (w.extractLsb' 4 4).toFin

/-- `n`, w[3:0]. -/
def nField (w : Word) : BitVec 4 := w.extractLsb' 0 4

/-- `kk`, w[7:0]. -/
def kkField (w : Word) : Byte := w.extractLsb' 0 8

/-- `nnn`, w[11:0]. -/
def nnnField (w : Word) : BitVec 12 := w.extractLsb' 0 12

/-- The word of two consecutive bytes, the one at the lower address on top (20_memory.md R65). -/
def wordOfBytes (hi lo : Byte) : Word := hi ++ lo

/-- The byte of `w` that lies at the lower address, w[15:8] (20_memory.md R65). -/
def highByte (w : Word) : Byte := w.extractLsb' 8 8

/-- The byte of `w` that lies at the higher address, w[7:0] (20_memory.md R65). -/
def lowByte (w : Word) : Byte := w.extractLsb' 0 8

/-! ### Two-level dispatch -/

/-- Group 0, keyed by `kk`; `x` is no part of the key (R95). -/
def decodeGroup0 (w : Word) : Instr :=
  if kkField w = 0xE0#8 then .cls
  else if kkField w = 0xEE#8 then .ret
  else .sys (nnnField w)

/-- Group 8, keyed by `n` (R96). -/
def decodeGroup8 (w : Word) : Except DecodeReject Instr :=
  let x := xField w
  let y := yField w
  if nField w = 0x0#4 then .ok (.ldVxVy x y)
  else if nField w = 0x1#4 then .ok (.orVxVy x y)
  else if nField w = 0x2#4 then .ok (.andVxVy x y)
  else if nField w = 0x3#4 then .ok (.xorVxVy x y)
  else if nField w = 0x4#4 then .ok (.addVxVy x y)
  else if nField w = 0x5#4 then .ok (.subVxVy x y)
  else if nField w = 0x6#4 then .ok (.shrVx x y)
  else if nField w = 0x7#4 then .ok (.subnVxVy x y)
  else if nField w = 0xE#4 then .ok (.shlVx x y)
  else .error (.unrecognisedGroup8 w)

/-- Group E, keyed by `kk` (R97). -/
def decodeGroupE (w : Word) : Except DecodeReject Instr :=
  if kkField w = 0x9E#8 then .ok (.skpVx (xField w))
  else if kkField w = 0xA1#8 then .ok (.sknpVx (xField w))
  else .error (.unrecognisedGroupE w)

/-- Group F, keyed by `kk` (R98). -/
def decodeGroupF (w : Word) : Except DecodeReject Instr :=
  let x := xField w
  if kkField w = 0x07#8 then .ok (.ldVxDt x)
  else if kkField w = 0x0A#8 then .ok (.ldVxK x)
  else if kkField w = 0x15#8 then .ok (.ldDtVx x)
  else if kkField w = 0x18#8 then .ok (.ldStVx x)
  else if kkField w = 0x1E#8 then .ok (.addIVx x)
  else if kkField w = 0x29#8 then .ok (.ldFVx x)
  else if kkField w = 0x33#8 then .ok (.ldBVx x)
  else if kkField w = 0x55#8 then .ok (.ldIndVx x)
  else if kkField w = 0x65#8 then .ok (.ldVxInd x)
  else .error (.unrecognisedGroupF w)

/-- Decode one instruction word: the primary key is `op`, the groups 0, 8, E and F are refined by their secondary key (R94).
A pure function of the word (R106). -/
def decode (w : Word) : Except DecodeReject Instr :=
  if opField w = 0x0#4 then .ok (decodeGroup0 w)
  else if opField w = 0x1#4 then .ok (.jp (nnnField w))
  else if opField w = 0x2#4 then .ok (.call (nnnField w))
  else if opField w = 0x3#4 then .ok (.seVxKk (xField w) (kkField w))
  else if opField w = 0x4#4 then .ok (.sneVxKk (xField w) (kkField w))
  else if opField w = 0x5#4 then .ok (.seVxVy (xField w) (yField w))
  else if opField w = 0x6#4 then .ok (.ldVxKk (xField w) (kkField w))
  else if opField w = 0x7#4 then .ok (.addVxKk (xField w) (kkField w))
  else if opField w = 0x8#4 then decodeGroup8 w
  else if opField w = 0x9#4 then .ok (.sneVxVy (xField w) (yField w))
  else if opField w = 0xA#4 then .ok (.ldINnn (nnnField w))
  else if opField w = 0xB#4 then .ok (.jpV0Nnn (nnnField w))
  else if opField w = 0xC#4 then .ok (.rndVxKk (xField w) (kkField w))
  else if opField w = 0xD#4 then .ok (.drw (xField w) (yField w) (nField w))
  else if opField w = 0xE#4 then decodeGroupE w
  else decodeGroupF w

/-- Decode the instruction at the head of a byte string, big-endian, and give the bytes after it (R90, 20_memory.md R65). -/
def decodeBytes : List Byte → Except DecodeReject (Instr × List Byte)
  | [] => .error (.tooFewBytes 0)
  | [_] => .error (.tooFewBytes 1)
  | hi :: lo :: rest =>
    match decode (wordOfBytes hi lo) with
    | .ok i => .ok (i, rest)
    | .error e => .error e

/-- The instruction word whose bits are `w`, numbered as the opcode table numbers them; bits from `nbits` on are 0. -/
def tableWord (nbits w : Nat) : Word := BitVec.ofNat 16 (w % 2 ^ nbits)

/-- What the decoder reads from the table's word, laid out as the hardware stores it. -/
def decodeTableWord (nbits w : Nat) : Option Instr :=
  match decodeBytes [highByte (tableWord nbits w), lowByte (tableWord nbits w)] with
  | .ok (i, _) => some i
  | .error _ => none

/-! ### Encoder -/

/-- Format NNN: op, nnn (R92). -/
def packNnn (op : BitVec 4) (nnn : BitVec 12) : Word := op ++ nnn

/-- Formats XKK and X: op, x, kk (R92). -/
def packXKk (op : BitVec 4) (x : Reg) (kk : Byte) : Word :=
  op ++ (BitVec.ofFin x : BitVec 4) ++ kk

/-- Formats XY and XYN: op, x, y, n (R92). -/
def packXYN (op : BitVec 4) (x y : Reg) (n : BitVec 4) : Word :=
  op ++ (BitVec.ofFin x : BitVec 4) ++ (BitVec.ofFin y : BitVec 4) ++ n

/-- The word of an instruction, from table O; 0 in every ignored field the syntax does not keep (R102, R103). -/
def encode : Instr → Word
  | .cls => packXKk 0x0#4 0 0xE0#8
  | .ret => packXKk 0x0#4 0 0xEE#8
  | .sys nnn => packNnn 0x0#4 nnn
  | .jp nnn => packNnn 0x1#4 nnn
  | .call nnn => packNnn 0x2#4 nnn
  | .seVxKk x kk => packXKk 0x3#4 x kk
  | .sneVxKk x kk => packXKk 0x4#4 x kk
  | .seVxVy x y => packXYN 0x5#4 x y 0x0#4
  | .ldVxKk x kk => packXKk 0x6#4 x kk
  | .addVxKk x kk => packXKk 0x7#4 x kk
  | .ldVxVy x y => packXYN 0x8#4 x y 0x0#4
  | .orVxVy x y => packXYN 0x8#4 x y 0x1#4
  | .andVxVy x y => packXYN 0x8#4 x y 0x2#4
  | .xorVxVy x y => packXYN 0x8#4 x y 0x3#4
  | .addVxVy x y => packXYN 0x8#4 x y 0x4#4
  | .subVxVy x y => packXYN 0x8#4 x y 0x5#4
  | .shrVx x y => packXYN 0x8#4 x y 0x6#4
  | .subnVxVy x y => packXYN 0x8#4 x y 0x7#4
  | .shlVx x y => packXYN 0x8#4 x y 0xE#4
  | .sneVxVy x y => packXYN 0x9#4 x y 0x0#4
  | .ldINnn nnn => packNnn 0xA#4 nnn
  | .jpV0Nnn nnn => packNnn 0xB#4 nnn
  | .rndVxKk x kk => packXKk 0xC#4 x kk
  | .drw x y n => packXYN 0xD#4 x y n
  | .skpVx x => packXKk 0xE#4 x 0x9E#8
  | .sknpVx x => packXKk 0xE#4 x 0xA1#8
  | .ldVxDt x => packXKk 0xF#4 x 0x07#8
  | .ldVxK x => packXKk 0xF#4 x 0x0A#8
  | .ldDtVx x => packXKk 0xF#4 x 0x15#8
  | .ldStVx x => packXKk 0xF#4 x 0x18#8
  | .addIVx x => packXKk 0xF#4 x 0x1E#8
  | .ldFVx x => packXKk 0xF#4 x 0x29#8
  | .ldBVx x => packXKk 0xF#4 x 0x33#8
  | .ldIndVx x => packXKk 0xF#4 x 0x55#8
  | .ldVxInd x => packXKk 0xF#4 x 0x65#8

/-- The two bytes of an instruction as they lie in memory (20_memory.md R65). -/
def encodeBytes (i : Instr) : List Byte := [highByte (encode i), lowByte (encode i)]

/-! ### Table O (R102) as data -/

/-- One row of table O: the word is this row's instruction when `w &&& mask = match`; `build` fills in the operands. -/
structure OpcodeRow where
  order : Nat
  mask : Word
  pattern : Word
  build : Word → Instr

/-- The row matches the word. -/
def OpcodeRow.accepts (r : OpcodeRow) (w : Word) : Bool := w &&& r.mask == r.pattern

/-- Rows 1 to 18 of table O. -/
def tableOFirst : List OpcodeRow := [
  ⟨1, 0xF0FF#16, 0x00E0#16, fun _ => .cls⟩,
  ⟨2, 0xF0FF#16, 0x00EE#16, fun _ => .ret⟩,
  ⟨3, 0xF000#16, 0x0000#16, fun w => .sys (nnnField w)⟩,
  ⟨4, 0xF000#16, 0x1000#16, fun w => .jp (nnnField w)⟩,
  ⟨5, 0xF000#16, 0x2000#16, fun w => .call (nnnField w)⟩,
  ⟨6, 0xF000#16, 0x3000#16, fun w => .seVxKk (xField w) (kkField w)⟩,
  ⟨7, 0xF000#16, 0x4000#16, fun w => .sneVxKk (xField w) (kkField w)⟩,
  ⟨8, 0xF000#16, 0x5000#16, fun w => .seVxVy (xField w) (yField w)⟩,
  ⟨9, 0xF000#16, 0x6000#16, fun w => .ldVxKk (xField w) (kkField w)⟩,
  ⟨10, 0xF000#16, 0x7000#16, fun w => .addVxKk (xField w) (kkField w)⟩,
  ⟨11, 0xF00F#16, 0x8000#16, fun w => .ldVxVy (xField w) (yField w)⟩,
  ⟨12, 0xF00F#16, 0x8001#16, fun w => .orVxVy (xField w) (yField w)⟩,
  ⟨13, 0xF00F#16, 0x8002#16, fun w => .andVxVy (xField w) (yField w)⟩,
  ⟨14, 0xF00F#16, 0x8003#16, fun w => .xorVxVy (xField w) (yField w)⟩,
  ⟨15, 0xF00F#16, 0x8004#16, fun w => .addVxVy (xField w) (yField w)⟩,
  ⟨16, 0xF00F#16, 0x8005#16, fun w => .subVxVy (xField w) (yField w)⟩,
  ⟨17, 0xF00F#16, 0x8006#16, fun w => .shrVx (xField w) (yField w)⟩,
  ⟨18, 0xF00F#16, 0x8007#16, fun w => .subnVxVy (xField w) (yField w)⟩]

/-- Rows 19 to 35 of table O. -/
def tableOSecond : List OpcodeRow := [
  ⟨19, 0xF00F#16, 0x800E#16, fun w => .shlVx (xField w) (yField w)⟩,
  ⟨20, 0xF000#16, 0x9000#16, fun w => .sneVxVy (xField w) (yField w)⟩,
  ⟨21, 0xF000#16, 0xA000#16, fun w => .ldINnn (nnnField w)⟩,
  ⟨22, 0xF000#16, 0xB000#16, fun w => .jpV0Nnn (nnnField w)⟩,
  ⟨23, 0xF000#16, 0xC000#16, fun w => .rndVxKk (xField w) (kkField w)⟩,
  ⟨24, 0xF000#16, 0xD000#16, fun w => .drw (xField w) (yField w) (nField w)⟩,
  ⟨25, 0xF0FF#16, 0xE09E#16, fun w => .skpVx (xField w)⟩,
  ⟨26, 0xF0FF#16, 0xE0A1#16, fun w => .sknpVx (xField w)⟩,
  ⟨27, 0xF0FF#16, 0xF007#16, fun w => .ldVxDt (xField w)⟩,
  ⟨28, 0xF0FF#16, 0xF00A#16, fun w => .ldVxK (xField w)⟩,
  ⟨29, 0xF0FF#16, 0xF015#16, fun w => .ldDtVx (xField w)⟩,
  ⟨30, 0xF0FF#16, 0xF018#16, fun w => .ldStVx (xField w)⟩,
  ⟨31, 0xF0FF#16, 0xF01E#16, fun w => .addIVx (xField w)⟩,
  ⟨32, 0xF0FF#16, 0xF029#16, fun w => .ldFVx (xField w)⟩,
  ⟨33, 0xF0FF#16, 0xF033#16, fun w => .ldBVx (xField w)⟩,
  ⟨34, 0xF0FF#16, 0xF055#16, fun w => .ldIndVx (xField w)⟩,
  ⟨35, 0xF0FF#16, 0xF065#16, fun w => .ldVxInd (xField w)⟩]

/-- Table O, the 35 rows in order. -/
def tableO : List OpcodeRow := tableOFirst ++ tableOSecond

/-- "A decoder takes the rows in order and the first row with `(w & mask) == match` is the instruction" (R102). -/
def decodeByTable (w : Word) : Option Instr :=
  match tableO.find? (fun r => r.accepts w) with
  | some r => some (r.build w)
  | none => none

/-- The row of table O an instruction belongs to, counted from 0. -/
def rowIndex : Instr → Nat
  | .cls => 0
  | .ret => 1
  | .sys _ => 2
  | .jp _ => 3
  | .call _ => 4
  | .seVxKk _ _ => 5
  | .sneVxKk _ _ => 6
  | .seVxVy _ _ => 7
  | .ldVxKk _ _ => 8
  | .addVxKk _ _ => 9
  | .ldVxVy _ _ => 10
  | .orVxVy _ _ => 11
  | .andVxVy _ _ => 12
  | .xorVxVy _ _ => 13
  | .addVxVy _ _ => 14
  | .subVxVy _ _ => 15
  | .shrVx _ _ => 16
  | .subnVxVy _ _ => 17
  | .shlVx _ _ => 18
  | .sneVxVy _ _ => 19
  | .ldINnn _ => 20
  | .jpV0Nnn _ => 21
  | .rndVxKk _ _ => 22
  | .drw _ _ _ => 23
  | .skpVx _ => 24
  | .sknpVx _ => 25
  | .ldVxDt _ => 26
  | .ldVxK _ => 27
  | .ldDtVx _ => 28
  | .ldStVx _ => 29
  | .addIVx _ => 30
  | .ldFVx _ => 31
  | .ldBVx _ => 32
  | .ldIndVx _ => 33
  | .ldVxInd _ => 34

/-- The row of an instruction. -/
def rowOf (i : Instr) : Option OpcodeRow := tableO[rowIndex i]?

end Sys2Proof
end

