-- ==== Sys2Proof/Machine/Fetch.lean ====
section
/-! DEFINITION. Fetching an instruction word, the no-op of an unrecognised word, the event it reports, and placing a word
where the next step fetches (45_step_tick_host.md R221, 30_encoding.md R100). -/

namespace Sys2Proof.Machine

/-- The word at pc, big-endian, or nothing when `pc + 1 >= 4096` (45_step_tick_host.md R221, 20_memory.md R65, R67). -/
def State.fetchWord (s : State) : Option Word :=
  if s.pc.toNat + 1 < Config.memSize then
    some (wordOfBytes (s.byteAt s.pc.toNat) (s.byteAt (s.pc.toNat + 1)))
  else none

/-- An unrecognised word is a no-op: its whole effect is `pc <- (pc + 2) mod 65536` (30_encoding.md R100). -/
def execUnrecognised (s : State) : Result := .next s.advance

/-- The report of an unrecognised word: the word and its address (30_encoding.md R100). -/
structure UnknownOpcode where
  word : Word
  pc : Word
  deriving DecidableEq, Repr

/-- The event that a Step from this state reports: an output of the Step, no state (30_encoding.md R100, 10_state.md R34;
log 5). -/
def State.stepEvent (s : State) : Option UnknownOpcode :=
  match s.fault, s.fetchWord with
  | none, some w =>
    match decode w with
    | .ok _ => none
    | .error _ => some { word := w, pc := s.pc }
  | _, _ => none

/-- The state with the two bytes of `w` at pc and pc + 1; a byte that would lie outside memory is not placed. -/
def State.placeWord (s : State) (w : Word) : State :=
  if s.pc.toNat + 1 < Config.memSize then
    { s with mem := Memory.putAll s.mem s.pc.toNat [highByte w, lowByte w] }
  else s

end Sys2Proof.Machine
end

