-- ==== Sys2Proof/Machine/Step.lean ====
section
/-! DEFINITION. One Step of the core (45_step_tick_host.md R221), and placing an instruction where it is fetched. -/

namespace Sys2Proof.Machine

/-- A Step: a core whose fault register is not NONE is halted (60_exceptions.md R258); else the fetch range check, then the
decoded instruction or the no-op of an unrecognised word (R221, R256). -/
def step (s : State) : Host.Outcome State Fault Refusal :=
  match s.fault with
  | some f => .fault f
  | none =>
    match s.fetchWord with
    | none => raise .memOutOfRange s
    | some w =>
      match decode w with
      | .ok i => exec i s
      | .error _ => execUnrecognised s

/-- `s` with the table's word stored at pc, where the next step fetches. It stands for the host's ROM load (log 12). -/
def State.withFetchWord (s : State) (nbits w : Nat) : State := s.placeWord (tableWord nbits w)

end Sys2Proof.Machine
end

