-- ==== Sys2Proof/Machine/Asm.lean ====
section
/-! DEFINITION. The assembly notation of the spec's listings (30_encoding.md R104, R105): the text of an instruction, and the
bytes of a listing of instructions, labels and the directives DW and DB. It is the spec's own notation and has no effect on the core
(log 14). -/

namespace Sys2Proof.Machine

/-- The spelling of a register, V0..V9, VA..VF (R104). -/
def regText (r : Reg) : String :=
  match ["V0", "V1", "V2", "V3", "V4", "V5", "V6", "V7", "V8", "V9", "VA", "VB", "VC", "VD", "VE", "VF"][r.val]? with
  | some t => t
  | none => "V"

/-- A decimal number (R7). -/
def numText {w : Nat} (b : BitVec w) : String := toString b.toNat

/-- The text of an instruction: the mnemonic column of table O with its operands, the destination first (R104). -/
def asmText : Instr → String
  | .cls => "CLS"
  | .ret => "RET"
  | .sys nnn => "SYS " ++ numText nnn
  | .jp nnn => "JP " ++ numText nnn
  | .call nnn => "CALL " ++ numText nnn
  | .seVxKk x kk => "SE " ++ regText x ++ ", " ++ numText kk
  | .sneVxKk x kk => "SNE " ++ regText x ++ ", " ++ numText kk
  | .seVxVy x y => "SE " ++ regText x ++ ", " ++ regText y
  | .ldVxKk x kk => "LD " ++ regText x ++ ", " ++ numText kk
  | .addVxKk x kk => "ADD " ++ regText x ++ ", " ++ numText kk
  | .ldVxVy x y => "LD " ++ regText x ++ ", " ++ regText y
  | .orVxVy x y => "OR " ++ regText x ++ ", " ++ regText y
  | .andVxVy x y => "AND " ++ regText x ++ ", " ++ regText y
  | .xorVxVy x y => "XOR " ++ regText x ++ ", " ++ regText y
  | .addVxVy x y => "ADD " ++ regText x ++ ", " ++ regText y
  | .subVxVy x y => "SUB " ++ regText x ++ ", " ++ regText y
  | .shrVx x y => if y = 0 then "SHR " ++ regText x else "SHR " ++ regText x ++ ", " ++ regText y
  | .subnVxVy x y => "SUBN " ++ regText x ++ ", " ++ regText y
  | .shlVx x y => if y = 0 then "SHL " ++ regText x else "SHL " ++ regText x ++ ", " ++ regText y
  | .sneVxVy x y => "SNE " ++ regText x ++ ", " ++ regText y
  | .ldINnn nnn => "LD I, " ++ numText nnn
  | .jpV0Nnn nnn => "JP V0, " ++ numText nnn
  | .rndVxKk x kk => "RND " ++ regText x ++ ", " ++ numText kk
  | .drw x y n => "DRW " ++ regText x ++ ", " ++ regText y ++ ", " ++ numText n
  | .skpVx x => "SKP " ++ regText x
  | .sknpVx x => "SKNP " ++ regText x
  | .ldVxDt x => "LD " ++ regText x ++ ", DT"
  | .ldVxK x => "LD " ++ regText x ++ ", K"
  | .ldDtVx x => "LD DT, " ++ regText x
  | .ldStVx x => "LD ST, " ++ regText x
  | .addIVx x => "ADD I, " ++ regText x
  | .ldFVx x => "LD F, " ++ regText x
  | .ldBVx x => "LD B, " ++ regText x
  | .ldIndVx x => "LD [I], " ++ regText x
  | .ldVxInd x => "LD " ++ regText x ++ ", [I]"

/-- One line of a listing (R104, R105). The four instructions whose operand may be a label stand in lines of their own. -/
inductive AsmLine where
  | op (i : Instr)
  | label (name : String)
  | jpLabel (name : String)
  | callLabel (name : String)
  | ldILabel (name : String)
  | jpV0Label (name : String)
  | dw (v : Word)
  | db (v : Byte)
  deriving DecidableEq, Repr

/-- How many bytes a line emits (R90, R105). -/
def AsmLine.size : AsmLine → Nat
  | .op _ => 2
  | .label _ => 0
  | .jpLabel _ => 2
  | .callLabel _ => 2
  | .ldILabel _ => 2
  | .jpV0Label _ => 2
  | .dw _ => 2
  | .db _ => 1

/-- "`label:` defines a label as the address of the next instruction" (R104), for lines placed from `a` on. -/
def labelAddress (name : String) : Nat → List AsmLine → Option Nat
  | _, [] => none
  | a, .label other :: rest => if other = name then some a else labelAddress name a rest
  | a, line :: rest => labelAddress name (a + line.size) rest

/-- The two bytes of an instruction whose operand is a label of the listing, or nothing when the label is not defined below
4096. -/
def labelled (listing : List AsmLine) (name : String) (build : BitVec 12 → Instr) : Option (List Byte) :=
  match labelAddress name Config.progBase listing with
  | some a => if a < Config.memSize then some (encodeBytes (build (BitVec.ofNat 12 a))) else none
  | none => none

/-- The bytes of one line of a listing (R104, R105). -/
def AsmLine.bytes (listing : List AsmLine) : AsmLine → Option (List Byte)
  | .op i => some (encodeBytes i)
  | .label _ => some []
  | .jpLabel name => labelled listing name .jp
  | .callLabel name => labelled listing name .call
  | .ldILabel name => labelled listing name .ldINnn
  | .jpV0Label name => labelled listing name .jpV0Nnn
  | .dw v => some [highByte v, lowByte v]
  | .db v => some [v]

/-- The bytes of some lines of a listing, in order. -/
def assembleLines (listing : List AsmLine) : List AsmLine → Option (List Byte)
  | [] => some []
  | line :: rest =>
    match line.bytes listing, assembleLines listing rest with
    | some here, some after => some (here ++ after)
    | _, _ => none

/-- The ROM of a listing that starts at 0x200 (R105). -/
def assemble (listing : List AsmLine) : Option (List Byte) := assembleLines listing listing

end Sys2Proof.Machine
end

