-- ==== Sys2Proof/Machine/Tick.lean ====
section
/-! DEFINITION. The Tick (45_step_tick_host.md R222, R223, R232): a number of Steps, then timer ageing, then a result. -/

namespace Sys2Proof.Machine

/-- What a Tick returns (R232): Ok with whether a render is pending, or Err with the fault; both with the UnknownOpcode
reports of this Tick in order. -/
inductive TickResult where
  | ok (renderPending : Bool) (events : List UnknownOpcode)
  | err (fault : Fault) (events : List UnknownOpcode)
  deriving DecidableEq, Repr

/-- `speed` Steps, collecting events, stopping after a Step that faults (R222). A step that stops without a next state,
which a core with `fault = NONE` never takes, would end the slots there (log 13). -/
def runSlots : Nat → List UnknownOpcode → State → List UnknownOpcode × State
  | 0, events, s => (events, s)
  | speed + 1, events, s =>
    match step s with
    | .next s' =>
      let events' := events ++ s.stepEvent.toList
      if s'.fault.isSome then (events', s') else runSlots speed events' s'
    | .fault _ => (events, s)
    | .refused _ => (events, s)

/-- `Tick(speed)` (R222): refused without any change when the core is halted; ended by a faulting Step without ageing; else
the timers are aged once and the result is Ok. -/
def tick (speed : Nat) (s : State) : TickResult × State :=
  match s.fault with
  | some f => (.err f [], s)
  | none =>
    let run := runSlots speed [] s
    match run.2.fault with
    | some f => (.err f run.1, run.2)
    | none => (.ok run.2.drawFlag run.1, run.2.ageTimers)

end Sys2Proof.Machine
end

