-- ==== Sys2Proof/Machine/HostOps.lean ====
section
/-! DEFINITION. What the host can do to the core: the six operations of 45_step_tick_host.md R220, the outputs it can sample,
and a session as the sequence of operations the host chooses (R233, 70_reset_and_hazards.md R281). -/

namespace Sys2Proof.Machine

/-- `Reset` (R224): every piece of state to table Z, at any time. The model's own draw number is kept, so that draws after a
reset are fresh (DESIGN CHOICE, log 1). -/
def hostReset (s : State) : State := { State.reset with draws := s.draws }

/-- `LoadROM(bytes)` (R225): nothing when the ROM is longer than 3584 bytes (`ROM_TOO_LARGE`, 60_exceptions.md R254), else the
bytes verbatim from 0x200 on and no other change. -/
def loadRom (bytes : List Byte) (s : State) : Option State :=
  if bytes.length > Config.maxRom then none
  else some { s with mem := Memory.putAll s.mem Config.progBase bytes }

/-- `SetKeys(k)` (R226): all 16 keys at once. -/
def setKeys (keys : Vector Bool 16) (s : State) : State := { s with key := keys }

/-- `Snapshot` (R227): a copy of the framebuffer. -/
def snapshot (s : State) : Vector (Vector Bool 64) 32 := s.fb

/-- `RenderAck` (R227): the one operation that clears the draw flag, Reset apart. -/
def renderAck (s : State) : State := { s with drawFlag := false }

/-- The beep output, `st != 0` (R228). -/
def beep (s : State) : Bool := s.st != 0x00#8

/-- The fault register's 2-bit code (10_state.md R33, 60_exceptions.md R250). -/
def faultCode : Option Fault → BitVec 2
  | none => 0
  | some .stackOverflow => 1
  | some .stackUnderflow => 2
  | some .memOutOfRange => 3

/-- The outputs of table H (R230) that are functions of the state between operations; every other field of the state can be
read as it is (10_state.md R36). -/
structure Outputs where
  fault : BitVec 2
  drawFlag : Bool
  beep : Bool
  waiting : Bool
  deriving DecidableEq, Repr

/-- The outputs as the host samples them between operations. -/
def outputs (s : State) : Outputs :=
  { fault := faultCode s.fault, drawFlag := s.drawFlag, beep := beep s, waiting := s.wait }

/-- One operation of the host (R220). -/
inductive HostOp where
  | reset
  | loadRom (bytes : List Byte)
  | setKeys (keys : Vector Bool 16)
  | tick (speed : Nat)
  | snapshot
  | renderAck
  deriving DecidableEq, Repr

/-- What an operation returns. -/
inductive HostReply where
  | done
  /-- `Err(ROM_TOO_LARGE)` of LoadROM, no fault of the core (R225, 60_exceptions.md R254). -/
  | romTooLarge
  | ticked (result : TickResult)
  | frame (fb : Vector (Vector Bool 64) 32)
  deriving DecidableEq, Repr

/-- One operation, run to completion: its reply and the state after (R220). -/
def operate : HostOp → State → HostReply × State
  | .reset, s => (.done, hostReset s)
  | .loadRom bytes, s =>
    match loadRom bytes s with
    | none => (.romTooLarge, s)
    | some s' => (.done, s')
  | .setKeys keys, s => (.done, setKeys keys s)
  | .tick speed, s => (.ticked (tick speed s).1, (tick speed s).2)
  | .snapshot, s => (.frame (snapshot s), s)
  | .renderAck, s => (.done, renderAck s)

/-- A sequence of operations: their replies and the state at the end. -/
def session : List HostOp → State → List HostReply × State
  | [], s => ([], s)
  | op :: ops, s =>
    ((operate op s).1 :: (session ops (operate op s).2).1, (session ops (operate op s).2).2)

end Sys2Proof.Machine
end

