-- ==== Sys2Proof/Safety.lean ====
section
/-! DEFINITION. What counts as a safe run and the invariants of the core, in the terms the statements use. -/

namespace Sys2Proof.Machine

/-- The core is not halted (60_exceptions.md R258). -/
abbrev State.running (s : State) : Prop := s.fault = none

/-- The memory list is in its canonical form (20_memory.md R60; the model's own form of it). -/
abbrev State.memOk (s : State) : Prop := Memory.wf s.mem = true

/-- "no instruction can produce a pc above 0x10FE" (10_state.md R24), and every live call-stack entry (below `sp`, R25) is the
address after a fetched CALL, at most 0x1000. Of the stale entries nothing is said. -/
abbrev State.pcOk (s : State) : Prop :=
  s.pc.toNat ≤ 0x10FE ∧ ∀ k : Fin 16, k.val < s.sp.val → (s.stack[k.val]).toNat ≤ 0x1000

/-- While the suspension flag is 1, pc points at an `LD Vx, K` (10_state.md R32). -/
def State.waitOk (s : State) : Prop :=
  s.wait = true → ∃ w x, s.fetchWord = some w ∧ decode w = .ok (.ldVxK x)

/-- The invariant of the core. -/
abbrev State.Inv (s : State) : Prop := s.memOk ∧ s.pcOk ∧ s.waitOk

/-- What no instruction reads (10_state.md R25, R27, R31, R32): two states agree on everything else. The call stacks agree on
their live entries. -/
structure State.SameVisible (s t : State) : Prop where
  v : t.v = s.v
  i : t.i = s.i
  pc : t.pc = s.pc
  sp : t.sp = s.sp
  live : ∀ k : Fin 16, k.val < s.sp.val → t.stack[k.val] = s.stack[k.val]
  dt : t.dt = s.dt
  mem : t.mem = s.mem
  fb : t.fb = s.fb
  key : t.key = s.key
  fault : t.fault = s.fault
  draws : t.draws = s.draws

/-- A pixel lies under a set bit of the sprite of `n` bytes at `a`, drawn with its corner at column `x0`, row `y0`
(43_display.md R190, R192): some row and column of the sprite have their bit set and wrap to that pixel. -/
def State.spriteCovers (s : State) (x0 y0 : Byte) (a n : Nat) (r : Fin 32) (c : Fin 64) : Prop :=
  ∃ row col : Nat, row < n ∧ col < 8 ∧ (s.byteAt (a + row)).getLsbD (7 - col) = true ∧
    (y0.toNat + row) % 32 = r.val ∧ (x0.toNat + col) % 64 = c.val

/-- The registers an instruction may write: its named destination, and VF for the flag-setting instructions
(10_state.md R21, R22). -/
def mayWriteV (r : Reg) : Instr → Bool
  | .cls => false
  | .ret => false
  | .sys _ => false
  | .jp _ => false
  | .call _ => false
  | .seVxKk _ _ => false
  | .sneVxKk _ _ => false
  | .seVxVy _ _ => false
  | .ldVxKk x _ => r == x
  | .addVxKk x _ => r == x
  | .ldVxVy x _ => r == x
  | .orVxVy x _ => r == x
  | .andVxVy x _ => r == x
  | .xorVxVy x _ => r == x
  | .addVxVy x _ => r == x || r == vf
  | .subVxVy x _ => r == x || r == vf
  | .shrVx x _ => r == x || r == vf
  | .subnVxVy x _ => r == x || r == vf
  | .shlVx x _ => r == x || r == vf
  | .sneVxVy _ _ => false
  | .ldINnn _ => false
  | .jpV0Nnn _ => false
  | .rndVxKk x _ => r == x
  | .drw _ _ _ => r == vf
  | .skpVx _ => false
  | .sknpVx _ => false
  | .ldVxDt x => r == x
  | .ldVxK x => r == x
  | .ldDtVx _ => false
  | .ldStVx _ => false
  | .addIVx _ => false
  | .ldFVx _ => false
  | .ldBVx _ => false
  | .ldIndVx _ => false
  | .ldVxInd x => decide (r.val ≤ x.val)

/-- How many bytes an instruction stores, from the address in I on (20_memory.md R66, table W). -/
def storedCount : Instr → Nat
  | .cls => 0
  | .ret => 0
  | .sys _ => 0
  | .jp _ => 0
  | .call _ => 0
  | .seVxKk _ _ => 0
  | .sneVxKk _ _ => 0
  | .seVxVy _ _ => 0
  | .ldVxKk _ _ => 0
  | .addVxKk _ _ => 0
  | .ldVxVy _ _ => 0
  | .orVxVy _ _ => 0
  | .andVxVy _ _ => 0
  | .xorVxVy _ _ => 0
  | .addVxVy _ _ => 0
  | .subVxVy _ _ => 0
  | .shrVx _ _ => 0
  | .subnVxVy _ _ => 0
  | .shlVx _ _ => 0
  | .sneVxVy _ _ => 0
  | .ldINnn _ => 0
  | .jpV0Nnn _ => 0
  | .rndVxKk _ _ => 0
  | .drw _ _ _ => 0
  | .skpVx _ => 0
  | .sknpVx _ => 0
  | .ldVxDt _ => 0
  | .ldVxK _ => 0
  | .ldDtVx _ => 0
  | .ldStVx _ => 0
  | .addIVx _ => 0
  | .ldFVx _ => 0
  | .ldBVx _ => 3
  | .ldIndVx x => x.val + 1
  | .ldVxInd _ => 0

/-- An address the instruction would access lies at 4096 or beyond (60_exceptions.md R253). -/
def rangeFault (s : State) : Instr → Prop
  | .cls => False
  | .ret => False
  | .sys _ => False
  | .jp _ => False
  | .call _ => False
  | .seVxKk _ _ => False
  | .sneVxKk _ _ => False
  | .seVxVy _ _ => False
  | .ldVxKk _ _ => False
  | .addVxKk _ _ => False
  | .ldVxVy _ _ => False
  | .orVxVy _ _ => False
  | .andVxVy _ _ => False
  | .xorVxVy _ _ => False
  | .addVxVy _ _ => False
  | .subVxVy _ _ => False
  | .shrVx _ _ => False
  | .subnVxVy _ _ => False
  | .shlVx _ _ => False
  | .sneVxVy _ _ => False
  | .ldINnn _ => False
  | .jpV0Nnn _ => False
  | .rndVxKk _ _ => False
  | .drw _ _ n => 0 < n.toNat ∧ 4096 ≤ s.i.toNat + n.toNat - 1
  | .skpVx _ => False
  | .sknpVx _ => False
  | .ldVxDt _ => False
  | .ldVxK _ => False
  | .ldDtVx _ => False
  | .ldStVx _ => False
  | .addIVx _ => False
  | .ldFVx _ => False
  | .ldBVx _ => 4096 ≤ s.i.toNat + 2
  | .ldIndVx x => 4096 ≤ s.i.toNat + x.val
  | .ldVxInd x => 4096 ≤ s.i.toNat + x.val

/-- The next pc of an instruction that does not fault, as 40_control.md R130 lists it. -/
def nextPcIs (s : State) (p : Word) : Instr → Prop
  | .cls => p = s.pc + 2
  | .ret => ∃ k : Fin 16, k.val + 1 = s.sp.val ∧ p = s.stack[k.val]
  | .sys _ => p = s.pc + 2
  | .jp nnn => p.toNat = nnn.toNat
  | .call nnn => p.toNat = nnn.toNat
  | .seVxKk x kk => (s.readV x = kk → p = s.pc + 4) ∧ (¬ s.readV x = kk → p = s.pc + 2)
  | .sneVxKk x kk => (¬ s.readV x = kk → p = s.pc + 4) ∧ (s.readV x = kk → p = s.pc + 2)
  | .seVxVy x y => (s.readV x = s.readV y → p = s.pc + 4) ∧ (¬ s.readV x = s.readV y → p = s.pc + 2)
  | .ldVxKk _ _ => p = s.pc + 2
  | .addVxKk _ _ => p = s.pc + 2
  | .ldVxVy _ _ => p = s.pc + 2
  | .orVxVy _ _ => p = s.pc + 2
  | .andVxVy _ _ => p = s.pc + 2
  | .xorVxVy _ _ => p = s.pc + 2
  | .addVxVy _ _ => p = s.pc + 2
  | .subVxVy _ _ => p = s.pc + 2
  | .shrVx _ _ => p = s.pc + 2
  | .subnVxVy _ _ => p = s.pc + 2
  | .shlVx _ _ => p = s.pc + 2
  | .sneVxVy x y => (¬ s.readV x = s.readV y → p = s.pc + 4) ∧ (s.readV x = s.readV y → p = s.pc + 2)
  | .ldINnn _ => p = s.pc + 2
  | .jpV0Nnn nnn => p.toNat = nnn.toNat + (s.readV 0).toNat
  | .rndVxKk _ _ => p = s.pc + 2
  | .drw _ _ _ => p = s.pc + 2
  | .skpVx x => ∀ k : Key, k.val = (s.readV x).toNat % 16 →
      (s.keyDown k = true → p = s.pc + 4) ∧ (s.keyDown k = false → p = s.pc + 2)
  | .sknpVx x => ∀ k : Key, k.val = (s.readV x).toNat % 16 →
      (s.keyDown k = false → p = s.pc + 4) ∧ (s.keyDown k = true → p = s.pc + 2)
  | .ldVxDt _ => p = s.pc + 2
  | .ldVxK _ => ((∃ k, s.keyDown k = true) → p = s.pc + 2) ∧ ((∀ k, s.keyDown k = false) → p = s.pc)
  | .ldDtVx _ => p = s.pc + 2
  | .ldStVx _ => p = s.pc + 2
  | .addIVx _ => p = s.pc + 2
  | .ldFVx _ => p = s.pc + 2
  | .ldBVx _ => p = s.pc + 2
  | .ldIndVx _ => p = s.pc + 2
  | .ldVxInd _ => p = s.pc + 2

end Sys2Proof.Machine
end

