-- ==== Sys2Proof/Certificates/Slice0/Obligations.lean ====
section
/-! DEFINITION. The statements about the core, one definition each; OBLIGATIONS.json lists them. A state written
`{ s with f := … }` says that every other field is as in `s`: that is the frame. -/

open Sys2Proof Sys2Proof.Machine

/-! ### The Step (45_step_tick_host.md R221) and faults (60_exceptions.md) -/

/-- R221: a Step of a core that is not halted is the fetch range check, then the decoded instruction, or for a word no row
matches the no-op with its event. -/
def Obligations.StepFetchesDecodesExecutes : Prop :=
  ∀ s : State, s.fault = none →
    (4096 ≤ s.pc.toNat + 1 →
      step s = .next { s with fault := some .memOutOfRange } ∧ s.stepEvent = none) ∧
    (s.pc.toNat + 1 < 4096 → ∀ w : Word, w = s.byteAt s.pc.toNat ++ s.byteAt (s.pc.toNat + 1) →
      (∀ i, decode w = .ok i → step s = exec i s ∧ s.stepEvent = none) ∧
      (∀ e, decode w = .error e →
        step s = .next { s with pc := s.pc + 2 } ∧ s.stepEvent = some { word := w, pc := s.pc }))

/-- R65, R67: the word fetched is big-endian, at any pc, odd ones too, as long as both bytes exist. -/
def Obligations.FetchIsBigEndianAtAnyPc : Prop :=
  ∀ (s : State) (w : Word), s.fetchWord = some w ↔
    s.pc.toNat + 1 < 4096 ∧
      w.toNat = 256 * (s.byteAt s.pc.toNat).toNat + (s.byteAt (s.pc.toNat + 1)).toNat

/-- R6: a Step of a core that is not halted completes, or raises a fault and changes nothing else, after which the core is
halted; an UnknownOpcode report never comes with a fault and changes nothing but pc. -/
def Obligations.StepCompletesOrFaults : Prop :=
  ∀ s : State, s.fault = none → ∃ t, step s = .next t ∧
    (t.fault = none ∨ ∃ f, t = { s with fault := some f } ∧ step t = .fault f) ∧
    (∀ e, s.stepEvent = some e → t = { s with pc := s.pc + 2 })

/-- R250 (table X: no other condition faults), R251, R252, R253: each fault arises in exactly the cases of table X. That the fetch check comes first (R256) the spec derives
from R221. -/
def Obligations.FaultsAriseExactlyInTableX : Prop :=
  ∀ s t : State, s.fault = none → step s = .next t →
    (t.fault = some .stackOverflow ↔
      ∃ w nnn, s.fetchWord = some w ∧ decode w = .ok (.call nnn) ∧ s.sp.val = 16) ∧
    (t.fault = some .stackUnderflow ↔
      ∃ w, s.fetchWord = some w ∧ decode w = .ok .ret ∧ s.sp.val = 0) ∧
    (t.fault = some .memOutOfRange ↔ 4096 ≤ s.pc.toNat + 1 ∨
      ∃ w i, s.fetchWord = some w ∧ decode w = .ok i ∧ rangeFault s i)

/-- R258 (the spec's decision D22): a halted core steps nowhere, refuses every Tick with the same error and no change, and leaves that state by Reset
alone. -/
def Obligations.HaltedUntilReset : Prop :=
  ∀ (s : State) (f : Fault), s.fault = some f →
    step s = .fault f ∧
    (∀ speed, tick speed s = (.err f [], s)) ∧
    (∀ op, op ≠ .reset → (operate op s).2.fault = some f) ∧
    (operate .reset s).2.fault = none

/-! ### Control flow (40_control.md) -/

/-- R121 (the spec's decision D10): only pc moves, and a Step that runs a SYS reports no UnknownOpcode. -/
def Obligations.SysIsNoOp : Prop :=
  ∀ (nnn : BitVec 12) (s : State), exec (.sys nnn) s = .next { s with pc := s.pc + 2 } ∧
    ∀ w, s.fetchWord = some w → decode w = .ok (.sys nnn) → s.stepEvent = none

/-- R123, R129: the target of JP is `nnn`; that of JP V0 is `nnn + V0`, not wrapped and not masked (V0 and never Vx:
the spec's decision D16). -/
def Obligations.JumpsSetPcToTarget : Prop :=
  ∀ (nnn : BitVec 12) (s : State),
    (∃ p : Word, p.toNat = nnn.toNat ∧ exec (.jp nnn) s = .next { s with pc := p }) ∧
    (∃ p : Word, p.toNat = nnn.toNat + (s.readV 0).toNat ∧ exec (.jpV0Nnn nnn) s = .next { s with pc := p })

/-- R124: CALL with fewer than 16 live entries pushes `pc + 2` and goes to `nnn`; with 16 it takes STACK_OVERFLOW. -/
def Obligations.CallPushesReturnAddress : Prop :=
  ∀ (nnn : BitVec 12) (s : State),
    (s.sp.val < 16 → ∃ t, exec (.call nnn) s = .next t ∧
      t = { s with stack := t.stack, sp := t.sp, pc := t.pc } ∧
      t.sp.val = s.sp.val + 1 ∧ t.pc.toNat = nnn.toNat ∧
      ∀ k : Fin 16, t.stack[k.val] = if k.val = s.sp.val then s.pc + 2 else s.stack[k.val]) ∧
    (s.sp.val = 16 → exec (.call nnn) s = .next { s with fault := some .stackOverflow })

/-- R122: RET with a live entry pops it into pc as it is; with none it takes STACK_UNDERFLOW. -/
def Obligations.RetPopsReturnAddress : Prop :=
  ∀ s : State,
    (∀ k : Fin 16, s.sp.val = k.val + 1 → ∃ t, exec .ret s = .next t ∧
      t = { s with sp := t.sp, pc := s.stack[k.val] } ∧ t.sp.val = k.val) ∧
    (s.sp.val = 0 → exec .ret s = .next { s with fault := some .stackUnderflow })

/-- R122, R124 (§8 of the source): CALL then RET comes back to the instruction after the CALL with the same depth, for every
depth 1..16, whatever ran the routine's other state in between. -/
def Obligations.CallThenRetComesBack : Prop :=
  ∀ (nnn : BitVec 12) (s t u : State), s.sp.val < 16 → exec (.call nnn) s = .next t →
    u.stack = t.stack → u.sp = t.sp →
    ∃ r, exec .ret u = .next r ∧ r.pc = s.pc + 2 ∧ r.sp = s.sp ∧ r = { u with pc := r.pc, sp := r.sp }

/-- R125, R126. -/
def Obligations.ImmediateSkips : Prop :=
  ∀ (x : Reg) (kk : Byte) (s : State),
    (s.readV x = kk → exec (.seVxKk x kk) s = .next { s with pc := s.pc + 4 } ∧
      exec (.sneVxKk x kk) s = .next { s with pc := s.pc + 2 }) ∧
    (s.readV x ≠ kk → exec (.seVxKk x kk) s = .next { s with pc := s.pc + 2 } ∧
      exec (.sneVxKk x kk) s = .next { s with pc := s.pc + 4 })

/-- R127, R128. -/
def Obligations.RegisterSkips : Prop :=
  ∀ (x y : Reg) (s : State),
    (s.readV x = s.readV y → exec (.seVxVy x y) s = .next { s with pc := s.pc + 4 } ∧
      exec (.sneVxVy x y) s = .next { s with pc := s.pc + 2 }) ∧
    (s.readV x ≠ s.readV y → exec (.seVxVy x y) s = .next { s with pc := s.pc + 2 } ∧
      exec (.sneVxVy x y) s = .next { s with pc := s.pc + 4 })

/-- The next pc of every instruction that does not fault, and that a fault leaves pc alone: R130, which the spec marks as derived
from R120 to R129, R200 to R202 and R257. -/
def Obligations.NextPcOfEveryInstruction : Prop :=
  ∀ (i : Instr) (s t : State), s.fault = none → exec i s = .next t →
    (t.fault = none → nextPcIs s t.pc i) ∧ (t.fault ≠ none → t.pc = s.pc)

/-! ### Load, arithmetic, logic, shift, random (41_load_alu.md) -/

/-- R141, R143. -/
def Obligations.RegisterLoads : Prop :=
  ∀ (x y : Reg) (kk : Byte) (s : State),
    (∃ t, exec (.ldVxKk x kk) s = .next t ∧ t = { s with v := t.v, pc := s.pc + 2 } ∧
      ∀ r, t.readV r = if r = x then kk else s.readV r) ∧
    (∃ t, exec (.ldVxVy x y) s = .next t ∧ t = { s with v := t.v, pc := s.pc + 2 } ∧
      ∀ r, t.readV r = if r = x then s.readV y else s.readV r)

/-- R142: wraps mod 256, and VF is written only where it is the destination (the spec's decision D13). -/
def Obligations.AddImmediateWraps : Prop :=
  ∀ (x : Reg) (kk : Byte) (s : State), ∃ t, exec (.addVxKk x kk) s = .next t ∧
    t = { s with v := t.v, pc := s.pc + 2 } ∧
    (t.readV x).toNat = ((s.readV x).toNat + kk.toNat) % 256 ∧
    ∀ r, r ≠ x → t.readV r = s.readV r

/-- R144, R145, R146: bit by bit, and VF is not reset. -/
def Obligations.LogicIsBitwise : Prop :=
  ∀ (x y : Reg) (s : State),
    (∃ t, exec (.orVxVy x y) s = .next t ∧ t = { s with v := t.v, pc := s.pc + 2 } ∧
      (∀ b < 8, (t.readV x).getLsbD b = ((s.readV x).getLsbD b || (s.readV y).getLsbD b)) ∧
      ∀ r, r ≠ x → t.readV r = s.readV r) ∧
    (∃ t, exec (.andVxVy x y) s = .next t ∧ t = { s with v := t.v, pc := s.pc + 2 } ∧
      (∀ b < 8, (t.readV x).getLsbD b = ((s.readV x).getLsbD b && (s.readV y).getLsbD b)) ∧
      ∀ r, r ≠ x → t.readV r = s.readV r) ∧
    (∃ t, exec (.xorVxVy x y) s = .next t ∧ t = { s with v := t.v, pc := s.pc + 2 } ∧
      (∀ b < 8, (t.readV x).getLsbD b = ((s.readV x).getLsbD b ^^ (s.readV y).getLsbD b)) ∧
      ∀ r, r ≠ x → t.readV r = s.readV r)

/-- R147, with the write order of R140: VF is the carry even where VF is the destination. -/
def Obligations.AddWritesCarryLast : Prop :=
  ∀ (x y : Reg) (s : State), ∃ t, exec (.addVxVy x y) s = .next t ∧
    t = { s with v := t.v, pc := s.pc + 2 } ∧
    (t.readV vf).toNat = (if (s.readV x).toNat + (s.readV y).toNat > 255 then 1 else 0) ∧
    (x ≠ vf → (t.readV x).toNat = ((s.readV x).toNat + (s.readV y).toNat) % 256) ∧
    ∀ r, r ≠ x → r ≠ vf → t.readV r = s.readV r

/-- R148, R150, with the write order of R140: VF is 1 when there is no borrow, equality included (the
spec's decision D12). -/
def Obligations.SubtractsWriteNoBorrowLast : Prop :=
  ∀ (x y : Reg) (s : State),
    (∃ t, exec (.subVxVy x y) s = .next t ∧ t = { s with v := t.v, pc := s.pc + 2 } ∧
      (t.readV vf).toNat = (if (s.readV x).toNat ≥ (s.readV y).toNat then 1 else 0) ∧
      (x ≠ vf → (t.readV x).toNat = ((s.readV x).toNat + 256 - (s.readV y).toNat) % 256) ∧
      ∀ r, r ≠ x → r ≠ vf → t.readV r = s.readV r) ∧
    (∃ t, exec (.subnVxVy x y) s = .next t ∧ t = { s with v := t.v, pc := s.pc + 2 } ∧
      (t.readV vf).toNat = (if (s.readV y).toNat ≥ (s.readV x).toNat then 1 else 0) ∧
      (x ≠ vf → (t.readV x).toNat = ((s.readV y).toNat + 256 - (s.readV x).toNat) % 256) ∧
      ∀ r, r ≠ x → r ≠ vf → t.readV r = s.readV r)

/-- R149, R151, with the write order of R140: one place, logical, VF the bit shifted out; y plays no part (the
spec's decision D5). -/
def Obligations.ShiftsWriteShiftedOutBitLast : Prop :=
  ∀ (x y : Reg) (s : State),
    (∃ t, exec (.shrVx x y) s = .next t ∧ t = { s with v := t.v, pc := s.pc + 2 } ∧
      (t.readV vf).toNat = (s.readV x).toNat % 2 ∧
      (x ≠ vf → (t.readV x).toNat = (s.readV x).toNat / 2) ∧
      ∀ r, r ≠ x → r ≠ vf → t.readV r = s.readV r) ∧
    (∃ t, exec (.shlVx x y) s = .next t ∧ t = { s with v := t.v, pc := s.pc + 2 } ∧
      (t.readV vf).toNat = (s.readV x).toNat / 128 ∧
      (x ≠ vf → (t.readV x).toNat = 2 * (s.readV x).toNat % 256) ∧
      ∀ r, r ≠ x → r ≠ vf → t.readV r = s.readV r)

/-- The source's property of 41_load_alu.md R148 as 90_conflicts.md C6 corrects it: ADD then SUB with the same y gives Vx
back when x, y and 15 are three different numbers. -/
def Obligations.AddThenSubGivesVxBack : Prop :=
  ∀ (x y : Reg) (s : State), x ≠ y → x ≠ vf → y ≠ vf →
    ∃ t u, exec (.addVxVy x y) s = .next t ∧ exec (.subVxVy x y) t = .next u ∧
      ∀ r, r ≠ vf → u.readV r = s.readV r

/-- R152, R229: the draw of this execution ANDed with kk. The draw is a free value (log 1): that draws are numbered by the
model's own field `draws`, and that one execution consumes one, is the model's choice. -/
def Obligations.RndMasksTheDraw : Prop :=
  ∀ (x : Reg) (kk : Byte) (s : State), ∃ t, exec (.rndVxKk x kk) s = .next t ∧
    t = { s with v := t.v, pc := s.pc + 2, draws := s.draws + 1 } ∧
    (∀ b < 8, (t.readV x).getLsbD b = ((Config.rnd s.draws).getLsbD b && kk.getLsbD b)) ∧
    ∀ r, r ≠ x → t.readV r = s.readV r

/-! ### Index register and memory (42_index_memory.md, 20_memory.md) -/

/-- R170, R171 (not masked to 12 bits: the spec's decision D14), R172 (only the low nibble counts: its decision D15). -/
def Obligations.IndexRegisterWrites : Prop :=
  ∀ (x : Reg) (nnn : BitVec 12) (s : State),
    (∃ i' : Word, i'.toNat = nnn.toNat ∧ exec (.ldINnn nnn) s = .next { s with i := i', pc := s.pc + 2 }) ∧
    (∃ i' : Word, i'.toNat = (s.i.toNat + (s.readV x).toNat) % 65536 ∧
      exec (.addIVx x) s = .next { s with i := i', pc := s.pc + 2 }) ∧
    (∃ i' : Word, i'.toNat = 5 * ((s.readV x).toNat % 16) ∧
      exec (.ldFVx x) s = .next { s with i := i', pc := s.pc + 2 })

/-- R173: the three digits at I, I+1, I+2 and no other cell, or MEM_OUT_OF_RANGE with nothing written. -/
def Obligations.BcdStoresThreeDigits : Prop :=
  ∀ (x : Reg) (s : State),
    (s.i.toNat + 2 < 4096 → ∃ t, exec (.ldBVx x) s = .next t ∧
      t = { s with mem := t.mem, pc := s.pc + 2 } ∧
      (t.byteAt s.i.toNat).toNat = (s.readV x).toNat / 100 ∧
      (t.byteAt (s.i.toNat + 1)).toNat = (s.readV x).toNat / 10 % 10 ∧
      (t.byteAt (s.i.toNat + 2)).toNat = (s.readV x).toNat % 10 ∧
      ∀ a, a < s.i.toNat ∨ s.i.toNat + 2 < a → t.byteAt a = s.byteAt a) ∧
    (4096 ≤ s.i.toNat + 2 → exec (.ldBVx x) s = .next { s with fault := some .memOutOfRange })

/-- R174: V0..Vx at I..I+x and no other cell, I unchanged (R176, the spec's decision D4), or MEM_OUT_OF_RANGE with nothing written. -/
def Obligations.RegisterDumpStoresV0ToVx : Prop :=
  ∀ (x : Reg) (s : State),
    (s.i.toNat + x.val < 4096 → ∃ t, exec (.ldIndVx x) s = .next t ∧
      t = { s with mem := t.mem, pc := s.pc + 2 } ∧
      (∀ k : Reg, k.val ≤ x.val → t.byteAt (s.i.toNat + k.val) = s.readV k) ∧
      ∀ a, a < s.i.toNat ∨ s.i.toNat + x.val < a → t.byteAt a = s.byteAt a) ∧
    (4096 ≤ s.i.toNat + x.val → exec (.ldIndVx x) s = .next { s with fault := some .memOutOfRange })

/-- R175: V0..Vx from I..I+x, the registers above unchanged, I unchanged (R176, the spec's decision D4), or MEM_OUT_OF_RANGE
with no register changed. -/
def Obligations.RegisterLoadFillsV0ToVx : Prop :=
  ∀ (x : Reg) (s : State),
    (s.i.toNat + x.val < 4096 → ∃ t, exec (.ldVxInd x) s = .next t ∧
      t = { s with v := t.v, pc := s.pc + 2 } ∧
      ∀ k : Reg, t.readV k = if k.val ≤ x.val then s.byteAt (s.i.toNat + k.val) else s.readV k) ∧
    (4096 ≤ s.i.toNat + x.val → exec (.ldVxInd x) s = .next { s with fault := some .memOutOfRange })

/-- R174, R175, R176 together: a load after a dump with the same x and I gives V0..Vx back, whatever happened to the registers
and the pc in between. -/
def Obligations.DumpThenLoadRestores : Prop :=
  ∀ (x : Reg) (s t : State) (v' : Vector Byte 16) (p : Word), s.i.toNat + x.val < 4096 →
    exec (.ldIndVx x) s = .next t →
    ∃ u, exec (.ldVxInd x) { t with v := v', pc := p } = .next u ∧
      ∀ k : Reg, k.val ≤ x.val → u.readV k = s.readV k

/-- R63: a byte read or write inside memory, and its refusal outside; a write changes exactly its own cell. -/
def Obligations.ByteAccessIsBoundsChecked : Prop :=
  ∀ (s : State) (a : Nat) (b : Byte),
    (a < 4096 → s.load a 1 = some [s.byteAt a] ∧
      ∃ t, s.store a [b] = some t ∧ t = { s with mem := t.mem } ∧ t.byteAt a = b ∧
        ∀ a', a' ≠ a → t.byteAt a' = s.byteAt a') ∧
    (4096 ≤ a → s.load a 1 = none ∧ s.store a [b] = none)

/-- The model's memory list is canonical: two well-formed lists that read the same at every address are the same list. -/
def Obligations.EqualReadsAreEqualMemories : Prop :=
  ∀ m m' : List Host.Cell, Memory.wf m = true → Memory.wf m' = true →
    (∀ a, a < 4096 → Memory.get m a = Memory.get m' a) → m = m'

/-- R66, table W, and R73: an instruction stores to the bytes from I on that table W gives it, and every other byte of
memory reads as before. -/
def Obligations.MemoryFrameOfEveryInstruction : Prop :=
  ∀ (i : Instr) (s t : State) (a : Nat), exec i s = .next t →
    (a < s.indexAddress ∨ s.indexAddress + storedCount i ≤ a) → t.byteAt a = s.byteAt a

/-- R72: bytes a register dump stored over code are what the next fetch from there reads. -/
def Obligations.StoresAreSeenByTheNextFetch : Prop :=
  ∀ (x : Reg) (s t : State) (j k : Reg), s.i.toNat + x.val < 4096 → k.val = j.val + 1 → k.val ≤ x.val →
    exec (.ldIndVx x) s = .next t →
    ∀ p : Word, p.toNat = s.i.toNat + j.val →
      ∃ w, State.fetchWord { t with pc := p } = some w ∧
        w.toNat = 256 * (s.readV j).toNat + (s.readV k).toNat

/-! ### Display (43_display.md) -/

/-- R191 (that it sets the draw flag is the spec's decision D19). -/
def Obligations.ClsBlanksTheScreen : Prop :=
  ∀ s : State, ∃ t, exec .cls s = .next t ∧
    t = { s with fb := t.fb, drawFlag := true, pc := s.pc + 2 } ∧ ∀ r c, t.pixel r c = false

/-- R190, R192: each pixel under a set bit of the sprite is flipped and no other; VF is 1 exactly when such a pixel was on;
the draw flag is set; or MEM_OUT_OF_RANGE with nothing changed when a sprite byte lies out of range. -/
def Obligations.DrwXorsTheSprite : Prop :=
  ∀ (x y : Reg) (n : BitVec 4) (s : State),
    ((n.toNat = 0 ∨ s.i.toNat + n.toNat - 1 < 4096) → ∃ t, exec (.drw x y n) s = .next t ∧
      t = { s with v := t.v, fb := t.fb, drawFlag := true, pc := s.pc + 2 } ∧
      (∀ r c, (s.spriteCovers (s.readV x) (s.readV y) s.i.toNat n.toNat r c → t.pixel r c = !s.pixel r c) ∧
        (¬ s.spriteCovers (s.readV x) (s.readV y) s.i.toNat n.toNat r c → t.pixel r c = s.pixel r c)) ∧
      ((∃ r c, s.spriteCovers (s.readV x) (s.readV y) s.i.toNat n.toNat r c ∧ s.pixel r c = true) →
        t.readV vf = 1) ∧
      ((∀ r c, s.spriteCovers (s.readV x) (s.readV y) s.i.toNat n.toNat r c → s.pixel r c = false) →
        t.readV vf = 0) ∧
      ∀ r, r ≠ vf → t.readV r = s.readV r) ∧
    ((0 < n.toNat ∧ 4096 ≤ s.i.toNat + n.toNat - 1) →
      exec (.drw x y n) s = .next { s with fault := some .memOutOfRange })

/-- R193, which the spec derives from R192: the same DRW twice restores the framebuffer, and the second one's VF is 1 exactly when the first turned a pixel on. -/
def Obligations.DrwTwiceRestoresTheScreen : Prop :=
  ∀ (x y : Reg) (n : BitVec 4) (s t : State), (n.toNat = 0 ∨ s.i.toNat + n.toNat - 1 < 4096) →
    exec (.drw x y n) s = .next t → t.readV x = s.readV x → t.readV y = s.readV y →
    ∃ u, exec (.drw x y n) t = .next u ∧ u.fb = s.fb ∧
      ((∃ r c, s.pixel r c = false ∧ t.pixel r c = true) → u.readV vf = 1) ∧
      ((∀ r c, s.pixel r c = false → t.pixel r c = false) → u.readV vf = 0)

/-! ### Keypad and timers (44_keypad_timers.md) -/

/-- R200, R201: the key is chosen by the low nibble of Vx. -/
def Obligations.KeySkips : Prop :=
  ∀ (x : Reg) (k : Key) (s : State), k.val = (s.readV x).toNat % 16 →
    (s.keyDown k = true → exec (.skpVx x) s = .next { s with pc := s.pc + 4 } ∧
      exec (.sknpVx x) s = .next { s with pc := s.pc + 2 }) ∧
    (s.keyDown k = false → exec (.skpVx x) s = .next { s with pc := s.pc + 2 } ∧
      exec (.sknpVx x) s = .next { s with pc := s.pc + 4 })

/-- R202 (level and lowest key: the spec's decision D21): the smallest key that is down goes into Vx and the wait ends; with no key down only the wait flag is written. -/
def Obligations.KeyWaitTakesLowestKeyOrHolds : Prop :=
  ∀ (x : Reg) (s : State),
    (∀ k : Key, s.keyDown k = true → (∀ l : Key, l.val < k.val → s.keyDown l = false) →
      ∃ t, exec (.ldVxK x) s = .next t ∧ t = { s with v := t.v, wait := false, pc := s.pc + 2 } ∧
        (t.readV x).toNat = k.val ∧ ∀ r, r ≠ x → t.readV r = s.readV r) ∧
    ((∀ k : Key, s.keyDown k = false) → exec (.ldVxK x) s = .next { s with wait := true })

/-- R202, R222, R265: a Tick that starts at an `LD Vx, K` with no key down executes nothing else, whatever its speed, and still
ages the timers. -/
def Obligations.KeyWaitTickOnlyAgesTimers : Prop :=
  ∀ (x : Reg) (w : Word) (s : State) (speed : Nat), s.fault = none → s.fetchWord = some w →
    decode w = .ok (.ldVxK x) → (∀ k : Key, s.keyDown k = false) →
    ∃ t, tick (speed + 1) s = (.ok s.drawFlag [], t) ∧
      t = { s with wait := true, dt := t.dt, st := t.st } ∧
      t.dt.toNat = s.dt.toNat - 1 ∧ t.st.toNat = s.st.toNat - 1

/-- R203, R204, R205. -/
def Obligations.TimerMoves : Prop :=
  ∀ (x : Reg) (s : State),
    (∃ t, exec (.ldVxDt x) s = .next t ∧ t = { s with v := t.v, pc := s.pc + 2 } ∧
      ∀ r, t.readV r = if r = x then s.dt else s.readV r) ∧
    exec (.ldDtVx x) s = .next { s with dt := s.readV x, pc := s.pc + 2 } ∧
    exec (.ldStVx x) s = .next { s with st := s.readV x, pc := s.pc + 2 }

/-! ### Frames and rules over all instructions (10_state.md) -/

/-- R21, R22: nothing but the named destination and, where the rule says so, VF changes among the registers. -/
def Obligations.RegisterFrameOfEveryInstruction : Prop :=
  ∀ (i : Instr) (s t : State) (r : Reg), exec i s = .next t → mayWriteV r i = false →
    t.readV r = s.readV r

/-- Table S of R20: which instructions write each piece of state other than V, pc, memory and the fault register; the keys
are written by none. -/
def Obligations.WritersOfEachPieceOfState : Prop :=
  ∀ (i : Instr) (s t : State), exec i s = .next t →
    (t.i ≠ s.i → (∃ nnn, i = .ldINnn nnn) ∨ (∃ x, i = .addIVx x) ∨ ∃ x, i = .ldFVx x) ∧
    (t.stack ≠ s.stack → ∃ nnn, i = .call nnn) ∧
    (t.sp ≠ s.sp → (∃ nnn, i = .call nnn) ∨ i = .ret) ∧
    (t.dt ≠ s.dt → ∃ x, i = .ldDtVx x) ∧
    (t.st ≠ s.st → ∃ x, i = .ldStVx x) ∧
    (t.fb ≠ s.fb → i = .cls ∨ ∃ x y n, i = .drw x y n) ∧
    (t.drawFlag ≠ s.drawFlag → i = .cls ∨ ∃ x y n, i = .drw x y n) ∧
    (t.wait ≠ s.wait → ∃ x, i = .ldVxK x) ∧
    t.key = s.key

/-- R22: after one of the six flag-writing instructions that did not fault, VF is 0 or 1. -/
def Obligations.FlagWritersLeaveZeroOrOne : Prop :=
  ∀ (x y : Reg) (n : BitVec 4) (i : Instr) (s t : State),
    (i = .addVxVy x y ∨ i = .subVxVy x y ∨ i = .shrVx x y ∨ i = .subnVxVy x y ∨ i = .shlVx x y ∨ i = .drw x y n) →
    s.fault = none → exec i s = .next t → t.fault = none → t.readV vf = 0 ∨ t.readV vf = 1

/-- R25, R27, R31, R32: no instruction can tell two states apart that differ only in `st`, the draw flag, the wait flag or the
stack entries above the top. -/
def Obligations.HiddenStateIsUnobservable : Prop :=
  ∀ s s' t : State, s.SameVisible s' → step s = .next t →
    ∃ t', step s' = .next t' ∧ t.SameVisible t'

/-! ### Encoding (30_encoding.md) -/

/-- R102, R103: decoding the word of a well-formed instruction gives it back, with every operand. -/
def Obligations.DecodeOfEncode : Prop :=
  ∀ i : Instr, i.wf = true → decode (encode i) = .ok i

/-- R95, R99, R103: a decoded instruction is well-formed, and its encoding is the word it came from with 0 in the ignored
nibbles the syntax does not keep. -/
def Obligations.EncodeOfDecodeClearsIgnoredNibbles : Prop :=
  ∀ (w : Word) (i : Instr), decode w = .ok i → i.wf = true ∧
    encode i =
      if w &&& 0xF0FF#16 = 0x00E0#16 ∨ w &&& 0xF0FF#16 = 0x00EE#16 then w &&& 0x00FF#16
      else if w &&& 0xF000#16 = 0x5000#16 ∨ w &&& 0xF000#16 = 0x9000#16 then w &&& 0xFFF0#16
      else w

/-- R94, R102: the two-level dispatch is the first matching row of table O. -/
def Obligations.DispatchIsFirstMatchingRow : Prop :=
  ∀ w : Word, decodeByTable w = match decode w with | .ok i => some i | .error _ => none

/-- R101, which the spec derives from R94 to R100: the unrecognised words. -/
def Obligations.UnrecognisedWordsAreExactlyThese : Prop :=
  ∀ w : Word, (∃ e, decode w = .error e) ↔
    (w.toNat / 4096 = 8 ∧ w.toNat % 16 ∈ [8, 9, 10, 11, 12, 13, 15]) ∨
    (w.toNat / 4096 = 14 ∧ w.toNat % 256 ∉ [0x9E, 0xA1]) ∨
    (w.toNat / 4096 = 15 ∧ w.toNat % 256 ∉ [0x07, 0x0A, 0x15, 0x18, 0x1E, 0x29, 0x33, 0x55, 0x65])

/-- R103: words that differ only in an ignored field have the same effect. -/
def Obligations.IgnoredFieldsHaveNoEffect : Prop :=
  ∀ (w w' : Word) (i i' : Instr) (s : State), decode w = .ok i → decode w' = .ok i' →
    ((w &&& 0xF0FF#16 = w' &&& 0xF0FF#16 ∧ (w &&& 0xF0FF#16 = 0x00E0#16 ∨ w &&& 0xF0FF#16 = 0x00EE#16)) ∨
     (w &&& 0xFFF0#16 = w' &&& 0xFFF0#16 ∧ (w &&& 0xF000#16 = 0x5000#16 ∨ w &&& 0xF000#16 = 0x9000#16)) ∨
     (w &&& 0xFF0F#16 = w' &&& 0xFF0F#16 ∧ (w &&& 0xF00F#16 = 0x8006#16 ∨ w &&& 0xF00F#16 = 0x800E#16)) ∨
     ((∃ a, i = .sys a) ∧ ∃ a', i' = .sys a')) →
    exec i s = exec i' s

/-- R102: a few words written out from table O. -/
def Obligations.SampleWordsDecode : Prop :=
  decode 0x6005#16 = .ok (.ldVxKk 0 5) ∧ decode 0xD005#16 = .ok (.drw 0 0 5) ∧
  decode 0x1234#16 = .ok (.jp 0x234) ∧ decode 0x8AB4#16 = .ok (.addVxVy 10 11) ∧
  decode 0xF265#16 = .ok (.ldVxInd 2) ∧ decode 0xE1A1#16 = .ok (.sknpVx 1) ∧
  decode 0x00EE#16 = .ok .ret

/-- R104, R105: a listing of instructions and DW words assembles to their words, high byte first, in order. -/
def Obligations.ListingAssemblesInOrder : Prop :=
  ∀ (pre : List Instr) (v : Word) (post : List Instr),
    assemble (pre.map .op ++ .dw v :: post.map .op) =
      some (pre.flatMap encodeBytes ++ highByte v :: lowByte v :: post.flatMap encodeBytes)

/-! ### Invariants -/

/-- The invariant holds after reset: memory in canonical form (the model's own form, log 7), pc in its bound, no key wait. Its
part about the stack speaks of live entries and there are none, so it does not rest on log 2. -/
def Obligations.InvariantHoldsAtReset : Prop := State.reset.Inv

/-- Every step keeps the memory canonical (the model's own form, log 7), pc at most 0x10FE (R24, which the spec derives from its
other rules), every live stack entry at most 0x1000 (R25), and the wait flag only at an LD Vx, K (R32). -/
def Obligations.EveryStepKeepsTheInvariant : Prop :=
  ∀ s t : State, s.Inv → step s = .next t → t.Inv

/-- R5, R220, R224 to R227: every host operation, a Tick of any speed among them, keeps the memory part (the model's own form,
log 7) and the pc part of the invariant. The key-wait part it keeps too, with ONE exception: a LoadROM issued while the core waits
for a key may overwrite the `LD Vx, K` that pc points at; R231 duty (2) forbids that load and the model defines it (log 11). -/
def Obligations.HostOperationsKeepTheInvariantButALoadInAKeyWait : Prop :=
  ∀ (op : HostOp) (s : State), s.memOk → s.pcOk →
    (operate op s).2.memOk ∧ (operate op s).2.pcOk ∧
    (s.waitOk → (s.wait = true → ∀ bytes, op ≠ .loadRom bytes) → (operate op s).2.waitOk)

/-! ### Tick and host (45_step_tick_host.md) -/

/-- R222: a Tick is its Steps, one after the other, then one ageing of the timers; a Step that faults ends it without
ageing (the spec's decision D27); a halted core refuses it. -/
def Obligations.TickRunsItsStepsThenAges : Prop :=
  (∀ s : State, s.fault = none → ∃ t, tick 0 s = (.ok s.drawFlag [], t) ∧
    t = { s with dt := t.dt, st := t.st } ∧ t.dt.toNat = s.dt.toNat - 1 ∧ t.st.toNat = s.st.toNat - 1) ∧
  (∀ (s t : State) (speed : Nat), s.fault = none → step s = .next t → t.fault = none →
    (∀ pending events u, tick speed t = (.ok pending events, u) →
      tick (speed + 1) s = (.ok pending (s.stepEvent.toList ++ events), u)) ∧
    (∀ f events u, tick speed t = (.err f events, u) →
      tick (speed + 1) s = (.err f (s.stepEvent.toList ++ events), u))) ∧
  (∀ (s t : State) (speed : Nat) (f : Fault), s.fault = none → step s = .next t → t.fault = some f →
    tick (speed + 1) s = (.err f [], t)) ∧
  (∀ (s : State) (speed : Nat) (f : Fault), s.fault = some f → tick speed s = (.err f [], s))

/-- R223 and 40_control.md R123: Ticks spent spinning on a JP to its own address change nothing but the timers, which count down
by one a Tick to 0. -/
def Obligations.SpinningTicksCountTheTimersDown : Prop :=
  ∀ (w : Word) (nnn : BitVec 12) (s : State) (speed count : Nat), s.fault = none → s.fetchWord = some w →
    decode w = .ok (.jp nnn) → s.pc.toNat = nnn.toNat →
    ∃ t, (session (List.replicate count (.tick speed)) s).2 = t ∧
      t = { s with dt := t.dt, st := t.st } ∧
      t.dt.toNat = s.dt.toNat - count ∧ t.st.toNat = s.st.toNat - count

/-- R30, R206: the keys do not change during a Tick. -/
def Obligations.TickKeepsTheKeys : Prop :=
  ∀ (s : State) (speed : Nat), (tick speed s).2.key = s.key

/-- R225, R254: LoadROM writes the bytes verbatim from 0x200 on and nothing else; a ROM of more than 3584 bytes changes
nothing. -/
def Obligations.LoadRomWritesVerbatimOrRejects : Prop :=
  ∀ (bytes : List Byte) (s : State),
    (bytes.length ≤ 3584 → ∃ t, operate (.loadRom bytes) s = (.done, t) ∧ t = { s with mem := t.mem } ∧
      (∀ j (h : j < bytes.length), t.byteAt (0x200 + j) = bytes[j]) ∧
      ∀ a, a < 0x200 ∨ 0x200 + bytes.length ≤ a → t.byteAt a = s.byteAt a) ∧
    (3584 < bytes.length → operate (.loadRom bytes) s = (.romTooLarge, s))

/-- R226, R227 (who clears the draw flag: the spec's decision D20), R228 (the level: its decision D29): SetKeys, Snapshot,
RenderAck and the beep output; and the fault register's codes as the host reads them
(10_state.md R33). -/
def Obligations.HostOperationsAndOutputs : Prop :=
  ∀ (keys : Vector Bool 16) (s : State),
    operate (.setKeys keys) s = (.done, { s with key := keys }) ∧
    operate .snapshot s = (.frame s.fb, s) ∧
    operate .renderAck s = (.done, { s with drawFlag := false }) ∧
    ((outputs s).beep = true ↔ s.st.toNat ≠ 0) ∧
    ((outputs s).fault = 0 ↔ s.fault = none) ∧
    ((outputs s).fault = 1 ↔ s.fault = some .stackOverflow) ∧
    ((outputs s).fault = 2 ↔ s.fault = some .stackUnderflow) ∧
    ((outputs s).fault = 3 ↔ s.fault = some .memOutOfRange)

/-- R35 (table Z), R62 (table F, written out), R224, R280: Reset at any time puts every piece of state to its reset value
(the zeros of the registers, the framebuffer, the keys and the flags are the spec's decision D24; the font's 80 bytes are its
decision D30, log 7). The stack's entries are left out: table Z does not specify them. -/
def Obligations.ResetPutsTableZ : Prop :=
  ∀ s : State, ∃ t, operate .reset s = (.done, t) ∧
    (∀ r, t.readV r = 0) ∧ t.i = 0 ∧ t.pc.toNat = 0x200 ∧ t.sp.val = 0 ∧ t.dt = 0 ∧ t.st = 0 ∧
    (List.range 80).map t.byteAt = [
        0xF0, 0x90, 0x90, 0x90, 0xF0,
        0x20, 0x60, 0x20, 0x20, 0x70,
        0xF0, 0x10, 0xF0, 0x80, 0xF0,
        0xF0, 0x10, 0xF0, 0x10, 0xF0,
        0x90, 0x90, 0xF0, 0x10, 0x10,
        0xF0, 0x80, 0xF0, 0x10, 0xF0,
        0xF0, 0x80, 0xF0, 0x90, 0xF0,
        0xF0, 0x10, 0x20, 0x40, 0x40,
        0xF0, 0x90, 0xF0, 0x90, 0xF0,
        0xF0, 0x90, 0xF0, 0x10, 0xF0,
        0xF0, 0x90, 0xF0, 0x90, 0x90,
        0xE0, 0x90, 0xE0, 0x90, 0xE0,
        0xF0, 0x80, 0x80, 0x80, 0xF0,
        0xE0, 0x90, 0x90, 0x90, 0xE0,
        0xF0, 0x80, 0xF0, 0x80, 0xF0,
        0xF0, 0x80, 0xF0, 0x80, 0x80] ∧
    (∀ a, 80 ≤ a → t.byteAt a = 0) ∧ (∀ r c, t.pixel r c = false) ∧ (∀ k, t.keyDown k = false) ∧
    t.drawFlag = false ∧ t.wait = false ∧ t.fault = none

/-- The host's own placing of an instruction: the word placed at pc is what the next step of a core that is not halted runs, and
no other byte or field changes. -/
def Obligations.PlacedWordIsRunNext : Prop :=
  ∀ (s : State) (w : Word) (i : Instr), s.fault = none → s.pc.toNat + 1 < 4096 → decode w = .ok i →
    step (s.withFetchWord 16 w.toNat) = exec i (s.withFetchWord 16 w.toNat) ∧
    s.withFetchWord 16 w.toNat = { s with mem := (s.withFetchWord 16 w.toNat).mem } ∧
    (∀ a, a < s.pc.toNat ∨ s.pc.toNat + 1 < a → (s.withFetchWord 16 w.toNat).byteAt a = s.byteAt a) ∧
    decodeTableWord 16 w.toNat = some i

/-! ### Completion -/

/-- Every one of the 35 instructions completes, with its own next pc, from every running state in which the fault of table X that
its rule names does not arise: sp below 16 for CALL (R124), above 0 for RET (R122), the accessed range inside memory for the four of
R253, and always for the rest (R250: "No other condition faults"). -/
def Obligations.EveryInstructionCompletesOutsideTableX : Prop :=
  ∀ (i : Instr) (s : State), s.fault = none → ¬ rangeFault s i → (i = .ret → 0 < s.sp.val) →
    (∀ nnn, i = .call nnn → s.sp.val < 16) →
    ∃ t, exec i s = .next t ∧ t.fault = none ∧ nextPcIs s t.pc i
end

