-- ==== Sys2Proof/Laws/Decode.lean ====
section
/-! SUPPORT. The fields of a packed word, the two bytes of a word, and how the rows of table O are laid out. -/

namespace Sys2Proof

/-! ### The bits of a packed word -/

theorem getLsbD_packNnn (op : BitVec 4) (nnn : BitVec 12) (i : Nat) :
    (packNnn op nnn).getLsbD i = if i < 12 then nnn.getLsbD i else op.getLsbD (i - 12) :=
  BitVec.getLsbD_append

theorem getLsbD_packXKk (op : BitVec 4) (x : Reg) (kk : Byte) (i : Nat) :
    (packXKk op x kk).getLsbD i = if i < 8 then kk.getLsbD i
      else if i - 8 < 4 then (BitVec.ofFin x : BitVec 4).getLsbD (i - 8) else op.getLsbD (i - 8 - 4) := by
  rw [← BitVec.getLsbD_append]
  exact BitVec.getLsbD_append

theorem getLsbD_packXYN (op : BitVec 4) (x y : Reg) (n : BitVec 4) (i : Nat) :
    (packXYN op x y n).getLsbD i = if i < 4 then n.getLsbD i
      else if i - 4 < 4 then (BitVec.ofFin y : BitVec 4).getLsbD (i - 4)
      else if i - 4 - 4 < 4 then (BitVec.ofFin x : BitVec 4).getLsbD (i - 4 - 4) else op.getLsbD (i - 4 - 4 - 4) := by
  rw [← BitVec.getLsbD_append, ← BitVec.getLsbD_append]
  exact BitVec.getLsbD_append

theorem getLsbD_wordOfBytes (hi lo : Byte) (i : Nat) :
    (wordOfBytes hi lo).getLsbD i = if i < 8 then lo.getLsbD i else hi.getLsbD (i - 8) :=
  BitVec.getLsbD_append

/-! ### Formats NNN, XKK and XYN give their fields back (30_encoding.md R91, R92) -/

@[simp] theorem opField_packNnn (op : BitVec 4) (nnn : BitVec 12) : opField (packNnn op nnn) = op := by
  apply BitVec.eq_of_getLsbD_eq
  intro i hi
  simp [opField, getLsbD_packNnn, hi]

@[simp] theorem nnnField_packNnn (op : BitVec 4) (nnn : BitVec 12) : nnnField (packNnn op nnn) = nnn := by
  apply BitVec.eq_of_getLsbD_eq
  intro i hi
  simp [nnnField, getLsbD_packNnn, hi]

@[simp] theorem kkField_packNnn (op : BitVec 4) (nnn : BitVec 12) : kkField (packNnn op nnn) = nnn.setWidth 8 := by
  apply BitVec.eq_of_getLsbD_eq
  intro i hi
  have : i < 12 := by omega
  simp [kkField, getLsbD_packNnn, hi, this]

@[simp] theorem opField_packXKk (op : BitVec 4) (x : Reg) (kk : Byte) : opField (packXKk op x kk) = op := by
  apply BitVec.eq_of_getLsbD_eq
  intro i hi
  have h1 : 12 + i - 8 - 4 = i := by omega
  have h2 : ¬ 12 + i - 8 < 4 := by omega
  have h3 : ¬ 12 + i < 8 := by omega
  simp [opField, getLsbD_packXKk, hi, h1, h2, h3]

@[simp] theorem xField_packXKk (op : BitVec 4) (x : Reg) (kk : Byte) : xField (packXKk op x kk) = x := by
  have h : (packXKk op x kk).extractLsb' 8 4 = (BitVec.ofFin x : BitVec 4) := by
    apply BitVec.eq_of_getLsbD_eq
    intro i hi
    simp [getLsbD_packXKk, hi]
  rw [xField, h]

@[simp] theorem kkField_packXKk (op : BitVec 4) (x : Reg) (kk : Byte) : kkField (packXKk op x kk) = kk := by
  apply BitVec.eq_of_getLsbD_eq
  intro i hi
  simp [kkField, getLsbD_packXKk, hi]

@[simp] theorem opField_packXYN (op : BitVec 4) (x y : Reg) (n : BitVec 4) : opField (packXYN op x y n) = op := by
  apply BitVec.eq_of_getLsbD_eq
  intro i hi
  have h1 : 12 + i - 4 - 4 - 4 = i := by omega
  have h2 : ¬ 12 + i - 4 - 4 < 4 := by omega
  have h3 : ¬ 12 + i - 4 < 4 := by omega
  have h4 : ¬ 12 + i < 4 := by omega
  simp [opField, getLsbD_packXYN, hi, h1, h2, h3, h4]

@[simp] theorem xField_packXYN (op : BitVec 4) (x y : Reg) (n : BitVec 4) : xField (packXYN op x y n) = x := by
  have h : (packXYN op x y n).extractLsb' 8 4 = (BitVec.ofFin x : BitVec 4) := by
    apply BitVec.eq_of_getLsbD_eq
    intro i hi
    have h1 : 8 + i - 4 - 4 = i := by omega
    have h3 : ¬ 8 + i - 4 < 4 := by omega
    have h4 : ¬ 8 + i < 4 := by omega
    simp [getLsbD_packXYN, hi, h1, h3, h4]
  rw [xField, h]

@[simp] theorem yField_packXYN (op : BitVec 4) (x y : Reg) (n : BitVec 4) : yField (packXYN op x y n) = y := by
  have h : (packXYN op x y n).extractLsb' 4 4 = (BitVec.ofFin y : BitVec 4) := by
    apply BitVec.eq_of_getLsbD_eq
    intro i hi
    simp [getLsbD_packXYN, hi]
  rw [yField, h]

@[simp] theorem nField_packXYN (op : BitVec 4) (x y : Reg) (n : BitVec 4) : nField (packXYN op x y n) = n := by
  apply BitVec.eq_of_getLsbD_eq
  intro i hi
  simp [nField, getLsbD_packXYN, hi]

/-! ### A word is its fields, packed -/

theorem word_packXKk (w : Word) : packXKk (opField w) (xField w) (kkField w) = w := by
  apply BitVec.eq_of_getLsbD_eq
  intro i hi
  have e : (BitVec.ofFin (xField w) : BitVec 4) = w.extractLsb' 8 4 := rfl
  rw [getLsbD_packXKk, e]
  by_cases h : i < 8
  · simp [kkField, h]
  · by_cases h2 : i - 8 < 4
    · have : 8 + (i - 8) = i := by omega
      simp [h, h2, this]
    · have : 12 + (i - 8 - 4) = i := by omega
      have h3 : i - 8 - 4 < 4 := by omega
      simp [opField, h, h2, h3, this]

theorem word_packXYN (w : Word) : packXYN (opField w) (xField w) (yField w) (nField w) = w := by
  apply BitVec.eq_of_getLsbD_eq
  intro i hi
  have e : (BitVec.ofFin (xField w) : BitVec 4) = w.extractLsb' 8 4 := rfl
  have e2 : (BitVec.ofFin (yField w) : BitVec 4) = w.extractLsb' 4 4 := rfl
  rw [getLsbD_packXYN, e, e2]
  by_cases h : i < 4
  · simp [nField, h]
  · by_cases h2 : i - 4 < 4
    · have : 4 + (i - 4) = i := by omega
      simp [h, h2, this]
    · by_cases h3 : i - 4 - 4 < 4
      · have : 8 + (i - 4 - 4) = i := by omega
        simp [h, h2, h3, this]
      · have : 12 + (i - 4 - 4 - 4) = i := by omega
        have h4 : i - 4 - 4 - 4 < 4 := by omega
        simp [opField, h, h2, h3, h4, this]

theorem word_packNnn (w : Word) : packNnn (opField w) (nnnField w) = w := by
  apply BitVec.eq_of_getLsbD_eq
  intro i hi
  rw [getLsbD_packNnn]
  by_cases h : i < 12
  · simp [nnnField, h]
  · have : 12 + (i - 12) = i := by omega
    have h3 : i - 12 < 4 := by omega
    simp [opField, h, h3, this]

/-- The value of a big-endian word. -/
theorem wordOfBytes_toNat (hi lo : Byte) : (wordOfBytes hi lo).toNat = 256 * hi.toNat + lo.toNat := by
  have := BitVec.toNat_append hi lo
  have h2 : (wordOfBytes hi lo).toNat = hi.toNat <<< 8 ||| lo.toNat := this
  rw [h2, ← Nat.shiftLeft_add_eq_or_of_lt lo.isLt, Nat.shiftLeft_eq]; omega

/-! ### Bytes (20_memory.md R65) -/

/-- The two bytes of a word make the word again. -/
@[simp] theorem wordOfBytes_high_low (w : Word) : wordOfBytes (highByte w) (lowByte w) = w := by
  apply BitVec.eq_of_getLsbD_eq
  intro i hi
  rw [getLsbD_wordOfBytes]
  by_cases h : i < 8
  · simp [lowByte, h]
  · have h' : 8 + (i - 8) = i := by omega
    have h2 : i - 8 < 8 := by omega
    simp [highByte, h, h', h2]

/-- A table row of 16 bits is the word itself. -/
theorem tableWord_16 (w : Word) : tableWord 16 w.toNat = w := by
  rw [tableWord, Nat.mod_eq_of_lt w.isLt, BitVec.ofNat_toNat, BitVec.setWidth_eq]

/-- Everything the byte decoder can do. -/
theorem decodeBytes_cons (hi lo : Byte) (rest : List Byte) :
    decodeBytes (hi :: lo :: rest) = (decode (wordOfBytes hi lo)).map (fun i => (i, rest)) := by
  simp only [decodeBytes]
  cases decode (wordOfBytes hi lo) <;> rfl

/-- Table O has 35 rows. -/
theorem tableO_length : tableO.length = 35 := rfl

end Sys2Proof
end

