-- ==== Sys2Proof/Laws/State.lean ====
section
/-! SUPPORT. The fields of a state after each named update, one lemma a field, true by rfl. -/

namespace Sys2Proof.Machine

variable (s : State)

@[simp] theorem State.writeV_v (r : Reg) (b : Byte) : (s.writeV r b).v = s.v.set r.val b := rfl
@[simp] theorem State.writeV_i (r : Reg) (b : Byte) : (s.writeV r b).i = s.i := rfl
@[simp] theorem State.writeV_pc (r : Reg) (b : Byte) : (s.writeV r b).pc = s.pc := rfl
@[simp] theorem State.writeV_stack (r : Reg) (b : Byte) : (s.writeV r b).stack = s.stack := rfl
@[simp] theorem State.writeV_sp (r : Reg) (b : Byte) : (s.writeV r b).sp = s.sp := rfl
@[simp] theorem State.writeV_dt (r : Reg) (b : Byte) : (s.writeV r b).dt = s.dt := rfl
@[simp] theorem State.writeV_st (r : Reg) (b : Byte) : (s.writeV r b).st = s.st := rfl
@[simp] theorem State.writeV_mem (r : Reg) (b : Byte) : (s.writeV r b).mem = s.mem := rfl
@[simp] theorem State.writeV_fb (r : Reg) (b : Byte) : (s.writeV r b).fb = s.fb := rfl
@[simp] theorem State.writeV_key (r : Reg) (b : Byte) : (s.writeV r b).key = s.key := rfl
@[simp] theorem State.writeV_drawFlag (r : Reg) (b : Byte) : (s.writeV r b).drawFlag = s.drawFlag := rfl
@[simp] theorem State.writeV_wait (r : Reg) (b : Byte) : (s.writeV r b).wait = s.wait := rfl
@[simp] theorem State.writeV_fault (r : Reg) (b : Byte) : (s.writeV r b).fault = s.fault := rfl
@[simp] theorem State.writeV_draws (r : Reg) (b : Byte) : (s.writeV r b).draws = s.draws := rfl

@[simp] theorem State.writeI_v (w : Word) : (s.writeI w).v = s.v := rfl
@[simp] theorem State.writeI_i (w : Word) : (s.writeI w).i = w := rfl
@[simp] theorem State.writeI_pc (w : Word) : (s.writeI w).pc = s.pc := rfl
@[simp] theorem State.writeI_stack (w : Word) : (s.writeI w).stack = s.stack := rfl
@[simp] theorem State.writeI_sp (w : Word) : (s.writeI w).sp = s.sp := rfl
@[simp] theorem State.writeI_dt (w : Word) : (s.writeI w).dt = s.dt := rfl
@[simp] theorem State.writeI_st (w : Word) : (s.writeI w).st = s.st := rfl
@[simp] theorem State.writeI_mem (w : Word) : (s.writeI w).mem = s.mem := rfl
@[simp] theorem State.writeI_fb (w : Word) : (s.writeI w).fb = s.fb := rfl
@[simp] theorem State.writeI_key (w : Word) : (s.writeI w).key = s.key := rfl
@[simp] theorem State.writeI_drawFlag (w : Word) : (s.writeI w).drawFlag = s.drawFlag := rfl
@[simp] theorem State.writeI_wait (w : Word) : (s.writeI w).wait = s.wait := rfl
@[simp] theorem State.writeI_fault (w : Word) : (s.writeI w).fault = s.fault := rfl
@[simp] theorem State.writeI_draws (w : Word) : (s.writeI w).draws = s.draws := rfl

@[simp] theorem State.advance_v : (s.advance).v = s.v := rfl
@[simp] theorem State.advance_i : (s.advance).i = s.i := rfl
@[simp] theorem State.advance_pc : (s.advance).pc = s.pc + 2 := rfl
@[simp] theorem State.advance_stack : (s.advance).stack = s.stack := rfl
@[simp] theorem State.advance_sp : (s.advance).sp = s.sp := rfl
@[simp] theorem State.advance_dt : (s.advance).dt = s.dt := rfl
@[simp] theorem State.advance_st : (s.advance).st = s.st := rfl
@[simp] theorem State.advance_mem : (s.advance).mem = s.mem := rfl
@[simp] theorem State.advance_fb : (s.advance).fb = s.fb := rfl
@[simp] theorem State.advance_key : (s.advance).key = s.key := rfl
@[simp] theorem State.advance_drawFlag : (s.advance).drawFlag = s.drawFlag := rfl
@[simp] theorem State.advance_wait : (s.advance).wait = s.wait := rfl
@[simp] theorem State.advance_fault : (s.advance).fault = s.fault := rfl
@[simp] theorem State.advance_draws : (s.advance).draws = s.draws := rfl

@[simp] theorem State.skipIf_v (b : Bool) : (s.skipIf b).v = s.v := rfl
@[simp] theorem State.skipIf_i (b : Bool) : (s.skipIf b).i = s.i := rfl
@[simp] theorem State.skipIf_pc (b : Bool) : (s.skipIf b).pc = s.pc + (if b then 4 else 2) := rfl
@[simp] theorem State.skipIf_stack (b : Bool) : (s.skipIf b).stack = s.stack := rfl
@[simp] theorem State.skipIf_sp (b : Bool) : (s.skipIf b).sp = s.sp := rfl
@[simp] theorem State.skipIf_dt (b : Bool) : (s.skipIf b).dt = s.dt := rfl
@[simp] theorem State.skipIf_st (b : Bool) : (s.skipIf b).st = s.st := rfl
@[simp] theorem State.skipIf_mem (b : Bool) : (s.skipIf b).mem = s.mem := rfl
@[simp] theorem State.skipIf_fb (b : Bool) : (s.skipIf b).fb = s.fb := rfl
@[simp] theorem State.skipIf_key (b : Bool) : (s.skipIf b).key = s.key := rfl
@[simp] theorem State.skipIf_drawFlag (b : Bool) : (s.skipIf b).drawFlag = s.drawFlag := rfl
@[simp] theorem State.skipIf_wait (b : Bool) : (s.skipIf b).wait = s.wait := rfl
@[simp] theorem State.skipIf_fault (b : Bool) : (s.skipIf b).fault = s.fault := rfl
@[simp] theorem State.skipIf_draws (b : Bool) : (s.skipIf b).draws = s.draws := rfl

@[simp] theorem State.jump_v (w : Word) : (s.jump w).v = s.v := rfl
@[simp] theorem State.jump_i (w : Word) : (s.jump w).i = s.i := rfl
@[simp] theorem State.jump_pc (w : Word) : (s.jump w).pc = w := rfl
@[simp] theorem State.jump_stack (w : Word) : (s.jump w).stack = s.stack := rfl
@[simp] theorem State.jump_sp (w : Word) : (s.jump w).sp = s.sp := rfl
@[simp] theorem State.jump_dt (w : Word) : (s.jump w).dt = s.dt := rfl
@[simp] theorem State.jump_st (w : Word) : (s.jump w).st = s.st := rfl
@[simp] theorem State.jump_mem (w : Word) : (s.jump w).mem = s.mem := rfl
@[simp] theorem State.jump_fb (w : Word) : (s.jump w).fb = s.fb := rfl
@[simp] theorem State.jump_key (w : Word) : (s.jump w).key = s.key := rfl
@[simp] theorem State.jump_drawFlag (w : Word) : (s.jump w).drawFlag = s.drawFlag := rfl
@[simp] theorem State.jump_wait (w : Word) : (s.jump w).wait = s.wait := rfl
@[simp] theorem State.jump_fault (w : Word) : (s.jump w).fault = s.fault := rfl
@[simp] theorem State.jump_draws (w : Word) : (s.jump w).draws = s.draws := rfl

@[simp] theorem State.afterDraw_v : (s.afterDraw).v = s.v := rfl
@[simp] theorem State.afterDraw_i : (s.afterDraw).i = s.i := rfl
@[simp] theorem State.afterDraw_pc : (s.afterDraw).pc = s.pc := rfl
@[simp] theorem State.afterDraw_stack : (s.afterDraw).stack = s.stack := rfl
@[simp] theorem State.afterDraw_sp : (s.afterDraw).sp = s.sp := rfl
@[simp] theorem State.afterDraw_dt : (s.afterDraw).dt = s.dt := rfl
@[simp] theorem State.afterDraw_st : (s.afterDraw).st = s.st := rfl
@[simp] theorem State.afterDraw_mem : (s.afterDraw).mem = s.mem := rfl
@[simp] theorem State.afterDraw_fb : (s.afterDraw).fb = s.fb := rfl
@[simp] theorem State.afterDraw_key : (s.afterDraw).key = s.key := rfl
@[simp] theorem State.afterDraw_drawFlag : (s.afterDraw).drawFlag = s.drawFlag := rfl
@[simp] theorem State.afterDraw_wait : (s.afterDraw).wait = s.wait := rfl
@[simp] theorem State.afterDraw_fault : (s.afterDraw).fault = s.fault := rfl
@[simp] theorem State.afterDraw_draws : (s.afterDraw).draws = s.draws + 1 := rfl

@[simp] theorem State.ageTimers_v : (s.ageTimers).v = s.v := rfl
@[simp] theorem State.ageTimers_i : (s.ageTimers).i = s.i := rfl
@[simp] theorem State.ageTimers_pc : (s.ageTimers).pc = s.pc := rfl
@[simp] theorem State.ageTimers_stack : (s.ageTimers).stack = s.stack := rfl
@[simp] theorem State.ageTimers_sp : (s.ageTimers).sp = s.sp := rfl
@[simp] theorem State.ageTimers_dt : (s.ageTimers).dt = age s.dt := rfl
@[simp] theorem State.ageTimers_st : (s.ageTimers).st = age s.st := rfl
@[simp] theorem State.ageTimers_mem : (s.ageTimers).mem = s.mem := rfl
@[simp] theorem State.ageTimers_fb : (s.ageTimers).fb = s.fb := rfl
@[simp] theorem State.ageTimers_key : (s.ageTimers).key = s.key := rfl
@[simp] theorem State.ageTimers_drawFlag : (s.ageTimers).drawFlag = s.drawFlag := rfl
@[simp] theorem State.ageTimers_wait : (s.ageTimers).wait = s.wait := rfl
@[simp] theorem State.ageTimers_fault : (s.ageTimers).fault = s.fault := rfl
@[simp] theorem State.ageTimers_draws : (s.ageTimers).draws = s.draws := rfl

@[simp] theorem setKeys_v (k : Vector Bool 16) : (setKeys k s).v = s.v := rfl
@[simp] theorem setKeys_i (k : Vector Bool 16) : (setKeys k s).i = s.i := rfl
@[simp] theorem setKeys_pc (k : Vector Bool 16) : (setKeys k s).pc = s.pc := rfl
@[simp] theorem setKeys_stack (k : Vector Bool 16) : (setKeys k s).stack = s.stack := rfl
@[simp] theorem setKeys_sp (k : Vector Bool 16) : (setKeys k s).sp = s.sp := rfl
@[simp] theorem setKeys_dt (k : Vector Bool 16) : (setKeys k s).dt = s.dt := rfl
@[simp] theorem setKeys_st (k : Vector Bool 16) : (setKeys k s).st = s.st := rfl
@[simp] theorem setKeys_mem (k : Vector Bool 16) : (setKeys k s).mem = s.mem := rfl
@[simp] theorem setKeys_fb (k : Vector Bool 16) : (setKeys k s).fb = s.fb := rfl
@[simp] theorem setKeys_key (k : Vector Bool 16) : (setKeys k s).key = k := rfl
@[simp] theorem setKeys_drawFlag (k : Vector Bool 16) : (setKeys k s).drawFlag = s.drawFlag := rfl
@[simp] theorem setKeys_wait (k : Vector Bool 16) : (setKeys k s).wait = s.wait := rfl
@[simp] theorem setKeys_fault (k : Vector Bool 16) : (setKeys k s).fault = s.fault := rfl
@[simp] theorem setKeys_draws (k : Vector Bool 16) : (setKeys k s).draws = s.draws := rfl

@[simp] theorem renderAck_v : (renderAck s).v = s.v := rfl
@[simp] theorem renderAck_i : (renderAck s).i = s.i := rfl
@[simp] theorem renderAck_pc : (renderAck s).pc = s.pc := rfl
@[simp] theorem renderAck_stack : (renderAck s).stack = s.stack := rfl
@[simp] theorem renderAck_sp : (renderAck s).sp = s.sp := rfl
@[simp] theorem renderAck_dt : (renderAck s).dt = s.dt := rfl
@[simp] theorem renderAck_st : (renderAck s).st = s.st := rfl
@[simp] theorem renderAck_mem : (renderAck s).mem = s.mem := rfl
@[simp] theorem renderAck_fb : (renderAck s).fb = s.fb := rfl
@[simp] theorem renderAck_key : (renderAck s).key = s.key := rfl
@[simp] theorem renderAck_drawFlag : (renderAck s).drawFlag = false := rfl
@[simp] theorem renderAck_wait : (renderAck s).wait = s.wait := rfl
@[simp] theorem renderAck_fault : (renderAck s).fault = s.fault := rfl
@[simp] theorem renderAck_draws : (renderAck s).draws = s.draws := rfl

end Sys2Proof.Machine
end

