-- ==== Sys2Proof/Laws/Memory.lean ====
section
/-! SUPPORT. The laws of memory: a read after a write, that every operation keeps the canonical form, and what the multi-byte
loads and stores do. -/

namespace Sys2Proof.Machine

/-! ### One cell -/

theorem Memory.get_filter_same (m : List Host.Cell) (a : Nat) :
    Memory.get (m.filter (fun c => c.1 != a)) a = Memory.initial a := by
  induction m with
  | nil => rfl
  | cons c m ih =>
    by_cases h : c.1 = a <;> simp [h, ih, Memory.get]

theorem Memory.get_filter_ne (m : List Host.Cell) (a a' : Nat) (h : a' ≠ a) :
    Memory.get (m.filter (fun c => c.1 != a)) a' = Memory.get m a' := by
  induction m with
  | nil => rfl
  | cons c m ih =>
    by_cases hc : c.1 = a
    · have : a ≠ a' := fun e => h e.symm
      simp [hc, ih, Memory.get, this]
    · simp [hc, ih, Memory.get]

theorem Memory.get_insert_same (m : List Host.Cell) (a : Nat) (b : Byte) (h : ∀ c ∈ m, c.1 ≠ a) :
    Memory.get (Memory.insert m a b) a = b := by
  induction m with
  | nil => simp [Memory.insert, Memory.get]
  | cons c m ih =>
    have hc : c.1 ≠ a := h c (by simp)
    have hm : ∀ c ∈ m, c.1 ≠ a := fun c hc => h c (by simp [hc])
    by_cases hlt : a < c.1 <;> simp [Memory.insert, Memory.get, hlt, hc, ih hm]

theorem Memory.get_insert_ne (m : List Host.Cell) (a a' : Nat) (b : Byte) (h : a' ≠ a) :
    Memory.get (Memory.insert m a b) a' = Memory.get m a' := by
  have h' : a ≠ a' := fun e => h e.symm
  induction m with
  | nil => simp [Memory.insert, Memory.get, h']
  | cons c m ih =>
    by_cases hlt : a < c.1 <;> simp [Memory.insert, Memory.get, hlt, h', ih]

/-- A read after a write to the same address gives the byte written. -/
@[simp] theorem Memory.get_put_same (m : List Host.Cell) (a : Nat) (b : Byte) :
    Memory.get (Memory.put m a b) a = b := by
  unfold Memory.put
  by_cases hb : b = Memory.initial a
  · simpa [hb] using Memory.get_filter_same m a
  · simp only [hb, if_false]
    exact Memory.get_insert_same _ _ _ (by intro c hc; simpa using (List.mem_filter.mp hc).2)

/-- A write leaves every other address alone. -/
theorem Memory.get_put_ne (m : List Host.Cell) (a a' : Nat) (b : Byte) (h : a' ≠ a) :
    Memory.get (Memory.put m a b) a' = Memory.get m a' := by
  unfold Memory.put
  by_cases hb : b = Memory.initial a
  · simpa [hb] using Memory.get_filter_ne m a a' h
  · simp only [hb, if_false]
    rw [Memory.get_insert_ne _ _ _ _ h, Memory.get_filter_ne _ _ _ h]

/-! ### The canonical form -/

theorem Memory.wfFrom_cons (lo a : Nat) (b : Byte) (m : List Host.Cell) :
    Memory.wfFrom lo ((a, b) :: m) = true ↔
      lo ≤ a ∧ a < 4096 ∧ b ≠ Memory.initial a ∧ Memory.wfFrom (a + 1) m = true := by
  simp [Memory.wfFrom, and_assoc]

theorem Memory.wfFrom_mono (m : List Host.Cell) (lo lo' : Nat) (h : lo' ≤ lo) (hm : Memory.wfFrom lo m = true) :
    Memory.wfFrom lo' m = true := by
  cases m with
  | nil => rfl
  | cons c m =>
    obtain ⟨a, b⟩ := c
    rw [Memory.wfFrom_cons] at hm ⊢
    exact ⟨by omega, hm.2⟩

theorem Memory.wfFrom_filter (m : List Host.Cell) (p : Host.Cell → Bool) (lo : Nat)
    (hm : Memory.wfFrom lo m = true) : Memory.wfFrom lo (m.filter p) = true := by
  induction m generalizing lo with
  | nil => rfl
  | cons c m ih =>
    obtain ⟨a, b⟩ := c
    rw [Memory.wfFrom_cons] at hm
    rw [List.filter_cons]
    split
    · exact (Memory.wfFrom_cons _ _ _ _).mpr ⟨hm.1, hm.2.1, hm.2.2.1, ih _ hm.2.2.2⟩
    · exact Memory.wfFrom_mono _ _ _ (by omega) (ih _ hm.2.2.2)

theorem Memory.wfFrom_insert (m : List Host.Cell) (lo a : Nat) (b : Byte) (hlo : lo ≤ a) (ha : a < 4096)
    (hb : b ≠ Memory.initial a) (hne : ∀ c ∈ m, c.1 ≠ a) (hm : Memory.wfFrom lo m = true) :
    Memory.wfFrom lo (Memory.insert m a b) = true := by
  induction m generalizing lo with
  | nil => exact (Memory.wfFrom_cons _ _ _ _).mpr ⟨hlo, ha, hb, rfl⟩
  | cons c m ih =>
    obtain ⟨k, d⟩ := c
    have hk : k ≠ a := hne (k, d) (by simp)
    rw [Memory.wfFrom_cons] at hm
    simp only [Memory.insert]
    split
    · rename_i hlt
      exact (Memory.wfFrom_cons _ _ _ _).mpr ⟨hlo, ha, hb,
        (Memory.wfFrom_cons _ _ _ _).mpr ⟨by omega, hm.2.1, hm.2.2.1, hm.2.2.2⟩⟩
    · exact (Memory.wfFrom_cons _ _ _ _).mpr ⟨hm.1, hm.2.1, hm.2.2.1,
        ih (k + 1) (by omega) (fun c hc => hne c (by simp [hc])) hm.2.2.2⟩

/-- A write to an address that exists keeps the canonical form. -/
theorem Memory.put_wf (m : List Host.Cell) (a : Nat) (b : Byte) (ha : a < 4096) (hm : Memory.wf m = true) :
    Memory.wf (Memory.put m a b) = true := by
  unfold Memory.put
  have hf := Memory.wfFrom_filter m (fun c => c.1 != a) 0 hm
  by_cases hb : b = Memory.initial a
  · simpa [hb, Memory.wf] using hf
  · simp only [hb, if_false]
    exact Memory.wfFrom_insert _ _ _ _ (by omega) ha hb
      (by intro c hc; simpa using (List.mem_filter.mp hc).2) hf

/-- Reset's memory has the canonical form. -/
theorem Memory.reset_wf : Memory.wf State.reset.mem = true := rfl

/-! ### Ranges of cells -/

/-- Writes that stay below 4096 keep the canonical form. -/
theorem Memory.putAll_wf (m : List Host.Cell) (a : Nat) (bs : List Byte) (ha : a + bs.length ≤ 4096)
    (hm : Memory.wf m = true) : Memory.wf (Memory.putAll m a bs) = true := by
  induction bs generalizing m a with
  | nil => exact hm
  | cons b bs ih =>
    simp only [List.length_cons] at ha
    exact ih _ _ (by omega) (Memory.put_wf _ _ _ (by omega) hm)

/-- Addresses outside the written range read as before. -/
theorem Memory.get_putAll_outside (m : List Host.Cell) (a a' : Nat) (bs : List Byte)
    (h : a' < a ∨ a + bs.length ≤ a') : Memory.get (Memory.putAll m a bs) a' = Memory.get m a' := by
  induction bs generalizing m a with
  | nil => rfl
  | cons b bs ih =>
    simp only [List.length_cons] at h
    rw [Memory.putAll, ih _ _ (by omega), Memory.get_put_ne _ _ _ _ (by omega)]

/-- The `j`-th written address reads as the `j`-th byte. -/
theorem Memory.get_putAll_inside (m : List Host.Cell) (a j : Nat) (bs : List Byte) (h : j < bs.length) :
    Memory.get (Memory.putAll m a bs) (a + j) = bs[j] := by
  induction bs generalizing m a j with
  | nil => simp at h
  | cons b bs ih =>
    cases j with
    | zero =>
      rw [Memory.putAll, Memory.get_putAll_outside _ _ _ _ (by omega)]
      simp
    | succ j =>
      have := ih (Memory.put m a b) (a + 1) j (by simpa using h)
      rw [Memory.putAll, show a + (j + 1) = a + 1 + j by omega, this]
      rfl

@[simp] theorem Memory.getAll_length (m : List Host.Cell) (a n : Nat) : (Memory.getAll m a n).length = n := by
  induction n generalizing a with
  | zero => rfl
  | succ n ih => simp [Memory.getAll, ih]

theorem Memory.getAll_getElem (m : List Host.Cell) (a n j : Nat) (h : j < (Memory.getAll m a n).length) :
    (Memory.getAll m a n)[j] = Memory.get m (a + j) := by
  induction n generalizing a j with
  | zero => simp [Memory.getAll] at h
  | succ n ih =>
    cases j with
    | zero => rfl
    | succ j =>
      simp only [Memory.getAll, List.getElem_cons_succ]
      rw [ih, show a + (j + 1) = a + 1 + j by omega]

/-! ### The bounds check -/

theorem inRange_iff (a count : Nat) : inRange a count = true ↔ count = 0 ∨ a + (count - 1) < 4096 := by
  simp [inRange]

theorem inRange_le (a count : Nat) (h : inRange a count = true) (h0 : count ≠ 0) : a + count ≤ 4096 := by
  rw [inRange_iff] at h
  omega

/-- Everything a load can do: the bytes in order when the range exists, nothing otherwise. -/
theorem State.load_eq (s : State) (a count : Nat) :
    s.load a count = if count = 0 ∨ a + (count - 1) < 4096 then some (Memory.getAll s.mem a count) else none := by
  by_cases h : inRange a count = true
  · simp [State.load, h, (inRange_iff a count).mp h]
  · have h' : ¬ (count = 0 ∨ a + (count - 1) < 4096) := fun e => h ((inRange_iff a count).mpr e)
    simp [State.load, h, h']

/-- Everything a store can do: the bytes written in order when the range exists, nothing otherwise. -/
theorem State.store_eq (s : State) (a : Nat) (bs : List Byte) :
    s.store a bs = if bs.length = 0 ∨ a + (bs.length - 1) < 4096 then
      some { s with mem := Memory.putAll s.mem a bs } else none := by
  by_cases h : inRange a bs.length = true
  · simp only [State.store, h, if_true, if_pos ((inRange_iff a bs.length).mp h)]
  · have h' : ¬ (bs.length = 0 ∨ a + (bs.length - 1) < 4096) := fun e => h ((inRange_iff a bs.length).mpr e)
    simp only [State.store, h, if_neg h', Bool.false_eq_true, if_false]

/-- A store that happens keeps the canonical form. -/
theorem State.store_memWf (s s' : State) (a : Nat) (bs : List Byte) (h : s.store a bs = some s')
    (hm : Memory.wf s.mem = true) : Memory.wf s'.mem = true := by
  unfold State.store at h
  split at h
  · rename_i hr
    cases h
    by_cases h0 : bs.length = 0
    · rw [List.length_eq_zero_iff] at h0
      simpa [h0, Memory.putAll] using hm
    · exact Memory.putAll_wf _ _ _ (inRange_le _ _ hr h0) hm
  · cases h

end Sys2Proof.Machine
end

