-- ==== Sys2Proof/Laws/Display.lean ====
section
/-! SUPPORT. What plotting does to one pixel and to the collision flag: the pixels of one sprite never coincide, so the order
of plotting cannot be observed (43_display.md R192, corner case (d)). -/

namespace Sys2Proof.Machine

/-- Pixel (r, c) of a framebuffer. -/
abbrev pixelOf (fb : Vector (Vector Bool 64) 32) (r : Fin 32) (c : Fin 64) : Bool := fb[r.val][c.val]

@[simp] theorem pixelOf_blankScreen (r : Fin 32) (c : Fin 64) : pixelOf blankScreen r c = false := by
  simp [pixelOf, blankScreen]

/-- Two framebuffers are equal when their pixels are. -/
theorem fb_ext (f g : Vector (Vector Bool 64) 32) (h : ∀ r c, pixelOf f r c = pixelOf g r c) : f = g := by
  ext r hr c hc
  exact h ⟨r, hr⟩ ⟨c, hc⟩

/-- Toggling changes its own pixel and no other. -/
theorem pixelOf_togglePixel (fb : Vector (Vector Bool 64) 32) (r r' : Fin 32) (c c' : Fin 64) :
    pixelOf (togglePixel fb r c) r' c' = (pixelOf fb r' c' ^^ decide (r' = r ∧ c' = c)) := by
  by_cases hr : r' = r
  · subst hr
    by_cases hc : c' = c
    · subst hc; simp [pixelOf, togglePixel]
    · have : c.val ≠ c'.val := fun e => hc (Fin.ext e.symm)
      simp [pixelOf, togglePixel, this, hc]
  · have : r.val ≠ r'.val := fun e => hr (Fin.ext e.symm)
    simp [pixelOf, togglePixel, this, hr]

theorem pixelOf_plotPixel (cx cy : Nat) (p : Canvas) (r : Fin 32) (c : Fin 64) :
    pixelOf (plotPixel cx cy p).fb r c = (pixelOf p.fb r c ^^ decide (cy % 32 = r.val ∧ cx % 64 = c.val)) := by
  have e1 : (r = Fin.ofNat 32 cy) ↔ (cy % 32 = r.val) := by rw [Fin.ext_iff]; exact eq_comm
  have e2 : (c = Fin.ofNat 64 cx) ↔ (cx % 64 = c.val) := by rw [Fin.ext_iff]; exact eq_comm
  simp only [plotPixel, pixelOf_togglePixel, e1, e2]

theorem collision_plotPixel (cx cy : Nat) (p : Canvas) :
    (plotPixel cx cy p).collision = (p.collision || pixelOf p.fb (Fin.ofNat 32 cy) (Fin.ofNat 64 cx)) := rfl

/-- The first `m` columns of one sprite byte. -/
def plotColumns (x0 cy : Nat) (b : Byte) (m : Nat) (p : Canvas) : Canvas :=
  (List.range m).foldl (fun p col => if spriteBit b col then plotPixel (x0 + col) cy p else p) p

theorem plotByte_eq (x0 cy : Nat) (b : Byte) (p : Canvas) : plotByte x0 cy b p = plotColumns x0 cy b 8 p := rfl

theorem plotColumns_succ (x0 cy : Nat) (b : Byte) (m : Nat) (p : Canvas) :
    plotColumns x0 cy b (m + 1) p =
      if spriteBit b m then plotPixel (x0 + m) cy (plotColumns x0 cy b m p) else plotColumns x0 cy b m p := by
  simp [plotColumns, List.range_succ]

/-- A pixel after the first `m` columns: toggled exactly where a set bit of the byte lands. -/
theorem pixelOf_plotColumns (x0 cy : Nat) (b : Byte) (m : Nat) (hm : m ≤ 8) (p : Canvas) (r : Fin 32) (c : Fin 64) :
    pixelOf (plotColumns x0 cy b m p).fb r c =
      (pixelOf p.fb r c ^^ decide (∃ col, col < m ∧ spriteBit b col = true ∧ cy % 32 = r.val ∧ (x0 + col) % 64 = c.val)) := by
  induction m with
  | zero => simp [plotColumns]
  | succ m ih =>
    rw [plotColumns_succ]
    by_cases hb : spriteBit b m = true
    · rw [if_pos hb, pixelOf_plotPixel, ih (by omega), Bool.xor_assoc]
      congr 1
      by_cases hhit : cy % 32 = r.val ∧ (x0 + m) % 64 = c.val
      · have h1 : ¬ ∃ col, col < m ∧ spriteBit b col = true ∧ cy % 32 = r.val ∧ (x0 + col) % 64 = c.val := by
          rintro ⟨col, hc, -, -, he⟩
          omega
        have h2 : ∃ col, col < m + 1 ∧ spriteBit b col = true ∧ cy % 32 = r.val ∧ (x0 + col) % 64 = c.val :=
          ⟨m, by omega, hb, hhit⟩
        rw [decide_eq_false h1, decide_eq_true h2, decide_eq_true hhit]
        rfl
      · have h2 : (∃ col, col < m + 1 ∧ spriteBit b col = true ∧ cy % 32 = r.val ∧ (x0 + col) % 64 = c.val) ↔
            ∃ col, col < m ∧ spriteBit b col = true ∧ cy % 32 = r.val ∧ (x0 + col) % 64 = c.val := by
          constructor
          · rintro ⟨col, hc, hs, hl⟩
            by_cases e : col = m
            · subst e; exact absurd hl hhit
            · exact ⟨col, by omega, hs, hl⟩
          · rintro ⟨col, hc, h⟩
            exact ⟨col, by omega, h⟩
        rw [decide_eq_false hhit, Bool.xor_false]
        exact decide_eq_decide.mpr h2.symm
    · rw [if_neg hb, ih (by omega)]
      congr 1
      apply decide_eq_decide.mpr
      constructor
      · rintro ⟨col, hc, h⟩
        exact ⟨col, by omega, h⟩
      · rintro ⟨col, hc, hs, h⟩
        by_cases e : col = m
        · subst e; exact absurd hs hb
        · exact ⟨col, by omega, hs, h⟩

/-- The collision flag after the first `m` columns: set when it was, or when a set bit landed on a pixel that was on. -/
theorem collision_plotColumns (x0 cy : Nat) (b : Byte) (m : Nat) (hm : m ≤ 8) (p : Canvas) :
    (plotColumns x0 cy b m p).collision = true ↔ p.collision = true ∨
      ∃ col, col < m ∧ spriteBit b col = true ∧ pixelOf p.fb (Fin.ofNat 32 cy) (Fin.ofNat 64 (x0 + col)) = true := by
  induction m with
  | zero => simp [plotColumns]
  | succ m ih =>
    rw [plotColumns_succ]
    by_cases hb : spriteBit b m = true
    · rw [if_pos hb, collision_plotPixel, Bool.or_eq_true, ih (by omega), pixelOf_plotColumns _ _ _ _ (by omega)]
      have h1 : ¬ ∃ col, col < m ∧ spriteBit b col = true ∧ cy % 32 = (Fin.ofNat 32 cy).val ∧
          (x0 + col) % 64 = (Fin.ofNat 64 (x0 + m)).val := by
        rintro ⟨col, hc, -, -, he⟩
        simp only [Fin.val_ofNat] at he
        omega
      rw [decide_eq_false h1, Bool.xor_false]
      constructor
      · rintro ((h | ⟨col, hc, h⟩) | h)
        · exact .inl h
        · exact .inr ⟨col, by omega, h⟩
        · exact .inr ⟨m, by omega, hb, h⟩
      · rintro (h | ⟨col, hc, hs, h⟩)
        · exact .inl (.inl h)
        · by_cases e : col = m
          · subst e; exact .inr h
          · exact .inl (.inr ⟨col, by omega, hs, h⟩)
    · rw [if_neg hb, ih (by omega)]
      constructor
      · rintro (h | ⟨col, hc, h⟩)
        · exact .inl h
        · exact .inr ⟨col, by omega, h⟩
      · rintro (h | ⟨col, hc, hs, h⟩)
        · exact .inl h
        · by_cases e : col = m
          · subst e; exact absurd hs hb
          · exact .inr ⟨col, by omega, hs, h⟩

/-- Some set bit of a sprite drawn with its corner at column `x0`, row `cy` lands on pixel (r, c). -/
def SpriteHits (x0 cy : Nat) (bs : List Byte) (r : Fin 32) (c : Fin 64) : Prop :=
  ∃ row col, ∃ h : row < bs.length, col < 8 ∧ spriteBit bs[row] col = true ∧
    (cy + row) % 32 = r.val ∧ (x0 + col) % 64 = c.val

theorem spriteHits_cons (x0 cy : Nat) (b : Byte) (bs : List Byte) (r : Fin 32) (c : Fin 64) :
    SpriteHits x0 cy (b :: bs) r c ↔
      (∃ col, col < 8 ∧ spriteBit b col = true ∧ cy % 32 = r.val ∧ (x0 + col) % 64 = c.val) ∨
        SpriteHits x0 (cy + 1) bs r c := by
  constructor
  · rintro ⟨row, col, hlen, hc, hs, hr, hcol⟩
    cases row with
    | zero => exact .inl ⟨col, hc, hs, by simpa using hr, hcol⟩
    | succ row =>
      refine .inr ⟨row, col, by simpa using hlen, hc, by simpa using hs, ?_, hcol⟩
      rw [← hr]; congr 1; omega
  · rintro (⟨col, hc, hs, hr, hcol⟩ | ⟨row, col, hlen, hc, hs, hr, hcol⟩)
    · exact ⟨0, col, by simp, hc, by simpa using hs, by simpa using hr, hcol⟩
    · refine ⟨row + 1, col, by simpa using hlen, hc, by simpa using hs, ?_, hcol⟩
      rw [← hr]; congr 1; omega

/-- Everything plotting a sprite of at most 32 rows can do: a pixel is toggled exactly where a set bit lands, and the
collision flag is set when it was or when a set bit landed on a pixel that was on. -/
theorem plotSprite_spec (x0 cy : Nat) (bs : List Byte) (hlen : bs.length ≤ 32) (p : Canvas) :
    (∀ r c, (SpriteHits x0 cy bs r c → pixelOf (plotSprite x0 cy bs p).fb r c = !pixelOf p.fb r c) ∧
      (¬ SpriteHits x0 cy bs r c → pixelOf (plotSprite x0 cy bs p).fb r c = pixelOf p.fb r c)) ∧
    ((plotSprite x0 cy bs p).collision = true ↔ p.collision = true ∨
      ∃ r c, SpriteHits x0 cy bs r c ∧ pixelOf p.fb r c = true) := by
  induction bs generalizing cy p with
  | nil =>
    have h0 : ∀ r c, ¬ SpriteHits x0 cy [] r c := by
      rintro r c ⟨row, col, h, -⟩
      simp at h
    exact ⟨fun r c => ⟨fun h => absurd h (h0 r c), fun _ => rfl⟩,
      ⟨.inl, fun h => h.elim id (fun ⟨r, c, h, _⟩ => absurd h (h0 r c))⟩⟩
  | cons b bs ih =>
    have hlen' : bs.length + 1 ≤ 32 := by simpa using hlen
    obtain ⟨ihpix, ihcol⟩ := ih (cy + 1) (by omega) (plotByte x0 cy b p)
    have hbyte := pixelOf_plotColumns x0 cy b 8 (le_refl _) p
    -- the rows of one sprite are different rows of the screen
    have apart : ∀ r c, (∃ col, col < 8 ∧ spriteBit b col = true ∧ cy % 32 = r.val ∧ (x0 + col) % 64 = c.val) →
        ¬ SpriteHits x0 (cy + 1) bs r c := by
      rintro r c ⟨-, -, -, hr, -⟩ ⟨row, -, hrow, -, -, hr', -⟩
      omega
    rw [← plotByte_eq] at hbyte
    constructor
    · intro r c
      rw [spriteHits_cons]
      constructor
      · rintro (h | h)
        · rw [plotSprite, (ihpix r c).2 (apart r c h), hbyte, decide_eq_true h, Bool.xor_true]
        · have hn : ¬ ∃ col, col < 8 ∧ spriteBit b col = true ∧ cy % 32 = r.val ∧ (x0 + col) % 64 = c.val :=
            fun e => apart r c e h
          rw [plotSprite, (ihpix r c).1 h, hbyte, decide_eq_false hn, Bool.xor_false]
      · intro h
        rw [not_or] at h
        rw [plotSprite, (ihpix r c).2 h.2, hbyte, decide_eq_false h.1, Bool.xor_false]
    · rw [plotSprite, ihcol, plotByte_eq, collision_plotColumns _ _ _ _ (le_refl _), or_assoc]
      apply or_congr_right
      constructor
      · rintro (⟨col, hc, hs, hon⟩ | ⟨r, c, hh, hon⟩)
        · exact ⟨_, _, (spriteHits_cons _ _ _ _ _ _).mpr (.inl ⟨col, hc, hs, rfl, rfl⟩), hon⟩
        · have hn : ¬ ∃ col, col < 8 ∧ spriteBit b col = true ∧ cy % 32 = r.val ∧ (x0 + col) % 64 = c.val :=
            fun e => apart r c e hh
          rw [← plotByte_eq, hbyte, decide_eq_false hn, Bool.xor_false] at hon
          exact ⟨r, c, (spriteHits_cons _ _ _ _ _ _).mpr (.inr hh), hon⟩
      · rintro ⟨r, c, hh, hon⟩
        rcases (spriteHits_cons _ _ _ _ _ _).mp hh with ⟨col, hc, hs, hr, hcol⟩ | hh
        · refine .inl ⟨col, hc, hs, ?_⟩
          have er : Fin.ofNat 32 cy = r := Fin.ext hr
          have ec : Fin.ofNat 64 (x0 + col) = c := Fin.ext hcol
          rw [er, ec]; exact hon
        · have hn : ¬ ∃ col, col < 8 ∧ spriteBit b col = true ∧ cy % 32 = r.val ∧ (x0 + col) % 64 = c.val :=
            fun e => apart r c e hh
          refine .inr ⟨r, c, hh, ?_⟩
          rw [← plotByte_eq, hbyte, decide_eq_false hn, Bool.xor_false]
          exact hon

end Sys2Proof.Machine
end

