-- ==== Sys2Proof/Laws/Registers.lean ====
section
/-! SUPPORT. Reading V after writing it, filling V from a byte list, the flag's last word, and the call stack. -/

namespace Sys2Proof.Machine

/-- A register reads as what was last written to it. -/
theorem State.readV_writeV (s : State) (x r : Reg) (b : Byte) :
    (s.writeV x b).readV r = if r = x then b else s.readV r := by
  by_cases h : r = x
  · subst h; simp [State.readV]
  · have : x.val ≠ r.val := fun e => h (Fin.ext e.symm)
    simp [State.readV, this, h]

@[simp] theorem State.readV_advance (s : State) (r : Reg) : s.advance.readV r = s.readV r := rfl
@[simp] theorem State.readV_skipIf (s : State) (b : Bool) (r : Reg) : (s.skipIf b).readV r = s.readV r := rfl
@[simp] theorem State.readV_jump (s : State) (w : Word) (r : Reg) : (s.jump w).readV r = s.readV r := rfl
@[simp] theorem State.readV_writeI (s : State) (w : Word) (r : Reg) : (s.writeI w).readV r = s.readV r := rfl
@[simp] theorem State.readV_afterDraw (s : State) (r : Reg) : s.afterDraw.readV r = s.readV r := rfl
@[simp] theorem State.readV_ageTimers (s : State) (r : Reg) : s.ageTimers.readV r = s.readV r := rfl

@[simp] theorem State.byteAt_writeV (s : State) (x : Reg) (b : Byte) (a : Nat) : (s.writeV x b).byteAt a = s.byteAt a := rfl
@[simp] theorem State.byteAt_advance (s : State) (a : Nat) : s.advance.byteAt a = s.byteAt a := rfl
@[simp] theorem State.byteAt_skipIf (s : State) (b : Bool) (a : Nat) : (s.skipIf b).byteAt a = s.byteAt a := rfl
@[simp] theorem State.byteAt_jump (s : State) (w : Word) (a : Nat) : (s.jump w).byteAt a = s.byteAt a := rfl
@[simp] theorem State.byteAt_writeI (s : State) (w : Word) (a : Nat) : (s.writeI w).byteAt a = s.byteAt a := rfl
@[simp] theorem State.byteAt_afterDraw (s : State) (a : Nat) : s.afterDraw.byteAt a = s.byteAt a := rfl
@[simp] theorem State.byteAt_ageTimers (s : State) (a : Nat) : s.ageTimers.byteAt a = s.byteAt a := rfl

/-- VF holds the flag after a flag-setting instruction, even where VF is the destination; the destination holds the value
where it is not VF; every other register is as before. -/
theorem State.readV_writeResultAndFlag (s : State) (x r : Reg) (val : Byte) (flag : Bool) :
    (s.writeResultAndFlag x val flag).readV r =
      if r = vf then flagByte flag else if r = x then val else s.readV r := by
  simp only [State.writeResultAndFlag, State.readV_writeV]

theorem State.byteAt_writeResultAndFlag (s : State) (x : Reg) (val : Byte) (flag : Bool) (a : Nat) :
    (s.writeResultAndFlag x val flag).byteAt a = s.byteAt a := rfl

/-- Register `j` after a fill from register `k` on. -/
theorem fillV_getElem (v : Vector Byte 16) (k : Nat) (bs : List Byte) (j : Nat) (hj : j < 16) :
    (fillV v k bs)[j] = if h : k ≤ j ∧ j < k + bs.length then bs[j - k]'(by omega) else v[j] := by
  induction bs generalizing v k with
  | nil =>
    simp [fillV]
  | cons b bs ih =>
    rw [fillV, ih]
    by_cases h1 : k + 1 ≤ j ∧ j < k + 1 + bs.length
    · have h2 : k ≤ j ∧ j < k + (b :: bs).length := by simp only [List.length_cons]; omega
      have h3 : j - k = (j - (k + 1)) + 1 := by omega
      simp only [h1, h2, and_self, dite_true, h3, List.getElem_cons_succ]
    · by_cases h2 : k = j
      · subst h2
        simp
      · have h3 : ¬ (k ≤ j ∧ j < k + (b :: bs).length) := by simp only [List.length_cons]; omega
        simp only [h1, h3, dite_false]
        rw [Vector.getElem_setIfInBounds]
        simp [h2]

/-- Everything a push can do. -/
theorem State.push_eq (s : State) (ret : Word) (h : s.sp.val < 16) :
    s.push ret = some { s with stack := s.stack.set s.sp.val ret, sp := ⟨s.sp.val + 1, by omega⟩ } := by
  simp [State.push, h]

theorem State.push_full (s : State) (ret : Word) (h : s.sp.val = 16) : s.push ret = none := by
  simp [State.push, h]

/-- Everything a pop can do. -/
theorem State.pop_eq (s : State) (h : 0 < s.sp.val) :
    s.pop = some (s.stack[s.sp.val - 1], { s with sp := ⟨s.sp.val - 1, by omega⟩ }) := by
  have : s.sp.val ≠ 0 := by omega
  simp only [State.pop, this, dite_false]

theorem State.pop_empty (s : State) (h : s.sp.val = 0) : s.pop = none := by
  simp only [State.pop, h, dite_true]

end Sys2Proof.Machine
end

