-- ==== Sys2Proof/Laws/Keys.lean ====
section
/-! SUPPORT. The lowest key that is down (44_keypad_timers.md R202). -/

namespace Sys2Proof.Machine

/-- Everything the search can answer: the first key that is down among those looked at, or that none is. -/
theorem lowestDownFrom_spec (keys : Vector Bool 16) (k fuel : Nat) :
    match lowestDownFrom keys k fuel with
    | some j => k ≤ j ∧ j < k + fuel ∧ (keys[j]?).getD false = true ∧ ∀ l, k ≤ l → l < j → (keys[l]?).getD false = false
    | none => ∀ l, k ≤ l → l < k + fuel → (keys[l]?).getD false = false := by
  induction fuel generalizing k with
  | zero =>
    simp only [lowestDownFrom]
    intro l h1 h2
    omega
  | succ fuel ih =>
    have hstep := ih (k + 1)
    by_cases hk : (keys[k]?).getD false = true
    · simp only [lowestDownFrom, hk, if_true]
      exact ⟨le_refl _, by omega, trivial, by intro l h1 h2; omega⟩
    · simp only [lowestDownFrom, hk, Bool.false_eq_true, if_false]
      have hk' : (keys[k]?).getD false = false := by simpa using hk
      have first : ∀ l, k ≤ l → (k + 1 ≤ l → (keys[l]?).getD false = false) → (keys[l]?).getD false = false := by
        intro l h1 h2
        by_cases e : l = k
        · rw [e]; exact hk'
        · exact h2 (by omega)
      cases hr : lowestDownFrom keys (k + 1) fuel with
      | none =>
        rw [hr] at hstep
        intro l h1 h2
        exact first l h1 (fun h => hstep l h (by omega))
      | some j =>
        rw [hr] at hstep
        exact ⟨by omega, by omega, hstep.2.2.1, fun l h1 h2 => first l h1 (fun h => hstep.2.2.2 l h h2)⟩

/-- The lowest key that is down, where there is one. -/
theorem lowestDown_some (s : State) (j : Nat) (h : lowestDown s.key = some j) :
    ∃ hj : j < 16, s.keyDown ⟨j, hj⟩ = true ∧ ∀ l : Key, l.val < j → s.keyDown l = false := by
  have hs := lowestDownFrom_spec s.key 0 16
  rw [show lowestDownFrom s.key 0 16 = some j from h] at hs
  obtain ⟨-, hlt, hdown, hfirst⟩ := hs
  have hj : j < 16 := by omega
  refine ⟨hj, ?_, ?_⟩
  · simpa [State.keyDown, hj] using hdown
  · intro l hl
    simpa [State.keyDown] using hfirst l.val (by omega) hl

/-- There is no lowest key exactly when none is down. -/
theorem lowestDown_none (s : State) : lowestDown s.key = none ↔ ∀ l : Key, s.keyDown l = false := by
  have hs := lowestDownFrom_spec s.key 0 16
  constructor
  · intro h l
    rw [show lowestDownFrom s.key 0 16 = none from h] at hs
    simpa [State.keyDown] using hs l.val (by omega) (by omega)
  · intro h
    cases hr : lowestDown s.key with
    | none => rfl
    | some j =>
      obtain ⟨hj, hd, -⟩ := lowestDown_some s j hr
      rw [h] at hd
      cases hd

/-- The key LD Vx, K takes is the one that is down below which none is. -/
theorem lowestDown_eq (s : State) (k : Key) (hk : s.keyDown k = true) (hlow : ∀ l : Key, l.val < k.val → s.keyDown l = false) :
    lowestDown s.key = some k.val := by
  cases hr : lowestDown s.key with
  | none =>
    rw [(lowestDown_none s).mp hr k] at hk
    cases hk
  | some j =>
    obtain ⟨hj, hd, hf⟩ := lowestDown_some s j hr
    have h1 : ¬ j < k.val := fun h => by rw [hlow ⟨j, hj⟩ h] at hd; cases hd
    have h2 : ¬ k.val < j := fun h => by rw [hf k h] at hk; cases hk
    rw [show j = k.val by omega]

end Sys2Proof.Machine
end

