-- ==== Sys2Proof/Laws/PerInstr.lean ====
section
/-! SUPPORT. Per instruction: its encoding matches the row of table O it belongs to, and that row's operands are its own
(30_encoding.md R102). -/

namespace Sys2Proof

/-! ### The three masks of table O pick the keys of a word -/

theorem and_mask_F000 (w : Word) : w &&& 0xF000#16 = packNnn (opField w) 0#12 := by
  have hm : ∀ i, i < 16 → (0xF000#16).getLsbD i = decide (12 ≤ i) := by decide
  apply BitVec.eq_of_getLsbD_eq
  intro i hi
  rw [BitVec.getLsbD_and, hm i hi, getLsbD_packNnn]
  by_cases h : i < 12
  · have : ¬ 12 ≤ i := by omega
    simp [h]
  · have h1 : 12 + (i - 12) = i := by omega
    have h2 : i - 12 < 4 := by omega
    have h3 : 12 ≤ i := by omega
    simp [opField, h, h1, h2, h3]

theorem and_mask_F0FF (w : Word) : w &&& 0xF0FF#16 = packXKk (opField w) 0 (kkField w) := by
  have hm : ∀ i, i < 16 → (0xF0FF#16).getLsbD i = (decide (i < 8) || decide (12 ≤ i)) := by decide
  apply BitVec.eq_of_getLsbD_eq
  intro i hi
  rw [BitVec.getLsbD_and, hm i hi, getLsbD_packXKk]
  by_cases h : i < 8
  · simp [kkField, h]
  · by_cases h2 : i < 12
    · have h4 : i - 8 < 4 := by omega
      have h5 : ¬ 12 ≤ i := by omega
      have h6 : (BitVec.ofFin 0 : BitVec 4).getLsbD (i - 8) = false := by
        change (0#4).getLsbD (i - 8) = false
        simp
      simp only [h, h4, h5, h6, if_true, if_false, decide_false, Bool.or_self, Bool.and_false]
    · have h4 : ¬ i - 8 < 4 := by omega
      have h5 : 12 + (i - 8 - 4) = i := by omega
      have h6 : i - 8 - 4 < 4 := by omega
      have h7 : 12 ≤ i := by omega
      simp [opField, h, h4, h5, h6, h7]

theorem and_mask_F00F (w : Word) : w &&& 0xF00F#16 = packXYN (opField w) 0 0 (nField w) := by
  have hm : ∀ i, i < 16 → (0xF00F#16).getLsbD i = (decide (i < 4) || decide (12 ≤ i)) := by decide
  have hz : ∀ j, (BitVec.ofFin 0 : BitVec 4).getLsbD j = false := by
    intro j
    change (0#4).getLsbD j = false
    simp
  apply BitVec.eq_of_getLsbD_eq
  intro i hi
  rw [BitVec.getLsbD_and, hm i hi, getLsbD_packXYN, hz, hz]
  by_cases h : i < 4
  · simp [nField, h]
  · by_cases h2 : i < 12
    · have h5 : ¬ 12 ≤ i := by omega
      by_cases h4 : i - 4 < 4
      · simp only [h, h4, h5, if_true, if_false, decide_false, Bool.or_self, Bool.and_false]
      · have h6 : i - 4 - 4 < 4 := by omega
        simp only [h, h4, h5, h6, if_true, if_false, decide_false, Bool.or_self, Bool.and_false]
    · have h4 : ¬ i - 4 < 4 := by omega
      have h5 : ¬ i - 4 - 4 < 4 := by omega
      have h6 : 12 + (i - 4 - 4 - 4) = i := by omega
      have h7 : i - 4 - 4 - 4 < 4 := by omega
      have h8 : 12 ≤ i := by omega
      simp [opField, h, h4, h5, h6, h7, h8]

namespace Laws.TableRow

/-- The word of `i` matches the row of table O that stands for `i`, and that row reads `i`'s operands from it. -/
def Statement (i : Instr) : Prop :=
  ∃ r, rowOf i = some r ∧ r.accepts (encode i) = true ∧ r.build (encode i) = i

theorem cls : Statement .cls :=
  ⟨_, rfl, rfl, rfl⟩

theorem ret : Statement .ret :=
  ⟨_, rfl, rfl, rfl⟩

theorem sys (nnn : BitVec 12) : Statement (.sys nnn) :=
  ⟨_, rfl, by simp [OpcodeRow.accepts, encode, and_mask_F000]; rfl, by simp [encode]⟩

theorem jp (nnn : BitVec 12) : Statement (.jp nnn) :=
  ⟨_, rfl, by simp [OpcodeRow.accepts, encode, and_mask_F000]; rfl, by simp [encode]⟩

theorem call (nnn : BitVec 12) : Statement (.call nnn) :=
  ⟨_, rfl, by simp [OpcodeRow.accepts, encode, and_mask_F000]; rfl, by simp [encode]⟩

theorem seVxKk (x : Reg) (kk : Byte) : Statement (.seVxKk x kk) :=
  ⟨_, rfl, by simp [OpcodeRow.accepts, encode, and_mask_F000]; rfl, by simp [encode]⟩

theorem sneVxKk (x : Reg) (kk : Byte) : Statement (.sneVxKk x kk) :=
  ⟨_, rfl, by simp [OpcodeRow.accepts, encode, and_mask_F000]; rfl, by simp [encode]⟩

theorem seVxVy (x y : Reg) : Statement (.seVxVy x y) :=
  ⟨_, rfl, by simp [OpcodeRow.accepts, encode, and_mask_F000]; rfl, by simp [encode]⟩

theorem ldVxKk (x : Reg) (kk : Byte) : Statement (.ldVxKk x kk) :=
  ⟨_, rfl, by simp [OpcodeRow.accepts, encode, and_mask_F000]; rfl, by simp [encode]⟩

theorem addVxKk (x : Reg) (kk : Byte) : Statement (.addVxKk x kk) :=
  ⟨_, rfl, by simp [OpcodeRow.accepts, encode, and_mask_F000]; rfl, by simp [encode]⟩

theorem ldVxVy (x y : Reg) : Statement (.ldVxVy x y) :=
  ⟨_, rfl, by simp [OpcodeRow.accepts, encode, and_mask_F00F]; rfl, by simp [encode]⟩

theorem orVxVy (x y : Reg) : Statement (.orVxVy x y) :=
  ⟨_, rfl, by simp [OpcodeRow.accepts, encode, and_mask_F00F]; rfl, by simp [encode]⟩

theorem andVxVy (x y : Reg) : Statement (.andVxVy x y) :=
  ⟨_, rfl, by simp [OpcodeRow.accepts, encode, and_mask_F00F]; rfl, by simp [encode]⟩

theorem xorVxVy (x y : Reg) : Statement (.xorVxVy x y) :=
  ⟨_, rfl, by simp [OpcodeRow.accepts, encode, and_mask_F00F]; rfl, by simp [encode]⟩

theorem addVxVy (x y : Reg) : Statement (.addVxVy x y) :=
  ⟨_, rfl, by simp [OpcodeRow.accepts, encode, and_mask_F00F]; rfl, by simp [encode]⟩

theorem subVxVy (x y : Reg) : Statement (.subVxVy x y) :=
  ⟨_, rfl, by simp [OpcodeRow.accepts, encode, and_mask_F00F]; rfl, by simp [encode]⟩

theorem shrVx (x y : Reg) : Statement (.shrVx x y) :=
  ⟨_, rfl, by simp [OpcodeRow.accepts, encode, and_mask_F00F]; rfl, by simp [encode]⟩

theorem subnVxVy (x y : Reg) : Statement (.subnVxVy x y) :=
  ⟨_, rfl, by simp [OpcodeRow.accepts, encode, and_mask_F00F]; rfl, by simp [encode]⟩

theorem shlVx (x y : Reg) : Statement (.shlVx x y) :=
  ⟨_, rfl, by simp [OpcodeRow.accepts, encode, and_mask_F00F]; rfl, by simp [encode]⟩

theorem sneVxVy (x y : Reg) : Statement (.sneVxVy x y) :=
  ⟨_, rfl, by simp [OpcodeRow.accepts, encode, and_mask_F000]; rfl, by simp [encode]⟩

theorem ldINnn (nnn : BitVec 12) : Statement (.ldINnn nnn) :=
  ⟨_, rfl, by simp [OpcodeRow.accepts, encode, and_mask_F000]; rfl, by simp [encode]⟩

theorem jpV0Nnn (nnn : BitVec 12) : Statement (.jpV0Nnn nnn) :=
  ⟨_, rfl, by simp [OpcodeRow.accepts, encode, and_mask_F000]; rfl, by simp [encode]⟩

theorem rndVxKk (x : Reg) (kk : Byte) : Statement (.rndVxKk x kk) :=
  ⟨_, rfl, by simp [OpcodeRow.accepts, encode, and_mask_F000]; rfl, by simp [encode]⟩

theorem drw (x y : Reg) (n : BitVec 4) : Statement (.drw x y n) :=
  ⟨_, rfl, by simp [OpcodeRow.accepts, encode, and_mask_F000]; rfl, by simp [encode]⟩

theorem skpVx (x : Reg) : Statement (.skpVx x) :=
  ⟨_, rfl, by simp [OpcodeRow.accepts, encode, and_mask_F0FF]; rfl, by simp [encode]⟩

theorem sknpVx (x : Reg) : Statement (.sknpVx x) :=
  ⟨_, rfl, by simp [OpcodeRow.accepts, encode, and_mask_F0FF]; rfl, by simp [encode]⟩

theorem ldVxDt (x : Reg) : Statement (.ldVxDt x) :=
  ⟨_, rfl, by simp [OpcodeRow.accepts, encode, and_mask_F0FF]; rfl, by simp [encode]⟩

theorem ldVxK (x : Reg) : Statement (.ldVxK x) :=
  ⟨_, rfl, by simp [OpcodeRow.accepts, encode, and_mask_F0FF]; rfl, by simp [encode]⟩

theorem ldDtVx (x : Reg) : Statement (.ldDtVx x) :=
  ⟨_, rfl, by simp [OpcodeRow.accepts, encode, and_mask_F0FF]; rfl, by simp [encode]⟩

theorem ldStVx (x : Reg) : Statement (.ldStVx x) :=
  ⟨_, rfl, by simp [OpcodeRow.accepts, encode, and_mask_F0FF]; rfl, by simp [encode]⟩

theorem addIVx (x : Reg) : Statement (.addIVx x) :=
  ⟨_, rfl, by simp [OpcodeRow.accepts, encode, and_mask_F0FF]; rfl, by simp [encode]⟩

theorem ldFVx (x : Reg) : Statement (.ldFVx x) :=
  ⟨_, rfl, by simp [OpcodeRow.accepts, encode, and_mask_F0FF]; rfl, by simp [encode]⟩

theorem ldBVx (x : Reg) : Statement (.ldBVx x) :=
  ⟨_, rfl, by simp [OpcodeRow.accepts, encode, and_mask_F0FF]; rfl, by simp [encode]⟩

theorem ldIndVx (x : Reg) : Statement (.ldIndVx x) :=
  ⟨_, rfl, by simp [OpcodeRow.accepts, encode, and_mask_F0FF]; rfl, by simp [encode]⟩

theorem ldVxInd (x : Reg) : Statement (.ldVxInd x) :=
  ⟨_, rfl, by simp [OpcodeRow.accepts, encode, and_mask_F0FF]; rfl, by simp [encode]⟩

end Laws.TableRow

end Sys2Proof
end

