-- ==== Sys2Proof/Laws/Step.lean ====
section
/-! SUPPORT. What a step can do, once: the inversion of `step`, and the meanings with more than one outcome as equations. -/

namespace Sys2Proof.Machine

/-- A halted core answers its fault. -/
theorem step_halted (s : State) (f : Fault) (h : s.fault = some f) : step s = .fault f := by
  simp [step, h]

/-- A fetch out of range takes the fault. -/
theorem step_fetch_fault (s : State) (h : s.fault = none) (hf : s.fetchWord = none) :
    step s = raise .memOutOfRange s := by
  simp [step, h, hf]

/-- A word that decodes runs its instruction. -/
theorem step_exec (s : State) (w : Word) (i : Instr) (h : s.fault = none) (hf : s.fetchWord = some w)
    (hd : decode w = .ok i) : step s = exec i s := by
  simp [step, h, hf, hd]

/-- An unrecognised word only moves pc. -/
theorem step_unrecognised (s : State) (w : Word) (e : DecodeReject) (h : s.fault = none) (hf : s.fetchWord = some w)
    (hd : decode w = .error e) : step s = .next s.advance := by
  simp [step, h, hf, hd, execUnrecognised]

/-- Everything a step that answers a next state can have done. -/
theorem step_cases (s t : State) (h : step s = .next t) : s.fault = none ∧
    ((s.fetchWord = none ∧ t = { s with fault := some .memOutOfRange }) ∨
     (∃ w e, s.fetchWord = some w ∧ decode w = .error e ∧ t = s.advance) ∨
     (∃ w i, s.fetchWord = some w ∧ decode w = .ok i ∧ exec i s = .next t)) := by
  cases hs : s.fault with
  | some f => rw [step_halted s f hs] at h; cases h
  | none =>
    refine ⟨rfl, ?_⟩
    cases hf : s.fetchWord with
    | none =>
      rw [step_fetch_fault s hs hf] at h
      cases h
      exact .inl ⟨rfl, rfl⟩
    | some w =>
      cases hd : decode w with
      | error e =>
        rw [step_unrecognised s w e hs hf hd] at h
        cases h
        exact .inr (.inl ⟨w, e, rfl, hd, rfl⟩)
      | ok i =>
        rw [step_exec s w i hs hf hd] at h
        exact .inr (.inr ⟨w, i, rfl, hd, h⟩)

theorem State.fetchWord_some (s : State) (h : s.pc.toNat + 1 < 4096) :
    s.fetchWord = some (wordOfBytes (s.byteAt s.pc.toNat) (s.byteAt (s.pc.toNat + 1))) := by
  simp [State.fetchWord, h]

theorem State.fetchWord_none (s : State) (h : 4096 ≤ s.pc.toNat + 1) : s.fetchWord = none := by
  have : ¬ s.pc.toNat + 1 < 4096 := by omega
  simp [State.fetchWord, this]

/-- A word is fetched only from inside memory. -/
theorem State.fetchWord_inside (s : State) (w : Word) (h : s.fetchWord = some w) : s.pc.toNat + 1 < 4096 := by
  by_contra hn
  rw [s.fetchWord_none (by omega)] at h
  cases h

/-- The word placed for a fetch is the word fetched. -/
theorem State.fetchWord_placeWord (s : State) (w : Word) (h : s.pc.toNat + 1 < 4096) :
    (s.placeWord w).fetchWord = some w := by
  have e : s.placeWord w = { s with mem := Memory.putAll s.mem s.pc.toNat [highByte w, lowByte w] } := by
    simp [State.placeWord, h]
  have h0 := Memory.get_putAll_inside s.mem s.pc.toNat 0 [highByte w, lowByte w] (by simp)
  have h1 := Memory.get_putAll_inside s.mem s.pc.toNat 1 [highByte w, lowByte w] (by simp)
  rw [State.fetchWord_some _ (by rw [e]; exact h), e]
  simp only [State.byteAt, Nat.add_zero, List.getElem_cons_zero, List.getElem_cons_succ] at *
  rw [h0, h1, wordOfBytes_high_low]

/-- Every instruction answers a next state, with the fault register as it was or a fault taken and nothing else changed. -/
theorem exec_answers (i : Instr) (s : State) : ∃ t, exec i s = .next t ∧ (t.fault = s.fault ∨ ∃ f, t = {s with fault := some f}) := by
  cases i
  case ret =>
    simp only [exec, execRet]
    cases h : s.pop with
    | none => exact ⟨_, rfl, .inr ⟨_, rfl⟩⟩
    | some p =>
      refine ⟨_, rfl, .inl ?_⟩
      unfold State.pop at h; split at h
      · cases h
      · cases h; rfl
  case call =>
    simp only [exec, execCall]
    cases h : s.push (s.pc+2) with
    | none => exact ⟨_, rfl, .inr ⟨_, rfl⟩⟩
    | some p =>
      refine ⟨_, rfl, .inl ?_⟩
      unfold State.push at h; split at h
      · cases h; rfl
      · cases h
  case ldBVx x =>
    simp only [exec, execLdBVx, State.store]
    split
    · exact ⟨_, rfl, .inr ⟨_, rfl⟩⟩
    · rename_i h; split at h <;> cases h; exact ⟨_, rfl, .inl rfl⟩
  case ldIndVx x =>
    simp only [exec, execLdIndVx, State.store]
    split
    · exact ⟨_, rfl, .inr ⟨_, rfl⟩⟩
    · rename_i h; split at h <;> cases h; exact ⟨_, rfl, .inl rfl⟩
  case ldVxInd x =>
    simp only [exec, execLdVxInd]
    split
    · exact ⟨_, rfl, .inr ⟨_, rfl⟩⟩
    · exact ⟨_, rfl, .inl rfl⟩
  case drw x y n =>
    simp only [exec, execDrw]
    split
    · exact ⟨_, rfl, .inr ⟨_, rfl⟩⟩
    · exact ⟨_, rfl, .inl rfl⟩
  case ldVxK x =>
    simp only [exec, execLdVxK]
    split <;> exact ⟨_, rfl, .inl rfl⟩
  all_goals exact ⟨_, rfl, .inl rfl⟩

/-- A Step that cannot fetch reports nothing. -/
theorem stepEvent_none_of_fetch (s : State) (h : s.fault = none) (hf : s.fetchWord = none) : s.stepEvent = none := by
  simp [State.stepEvent, h, hf]

/-- A Step that runs an instruction reports nothing. -/
theorem stepEvent_ok (s : State) (h : s.fault = none) (w) (i) (hf : s.fetchWord = some w) (hd : decode w = .ok i) : s.stepEvent = none := by
  simp [State.stepEvent, h, hf, hd]

/-- A Step of an unrecognised word reports it. -/
theorem stepEvent_err (s : State) (h : s.fault = none) (w) (e) (hf : s.fetchWord = some w) (hd : decode w = .error e) : s.stepEvent = some ⟨w, s.pc⟩ := by
  simp [State.stepEvent, h, hf, hd]

end Sys2Proof.Machine
end

