-- ==== Sys2Proof/Laws/Tick.lean ====
section
/-! SUPPORT. What a Tick does, by induction over its Steps, once. -/

namespace Sys2Proof.Machine

/-- A timer one Tick later. -/
theorem age_toNat : ∀ b : Byte, (age b).toNat = b.toNat - 1 := by decide

/-- A halted core refuses a Tick. -/
theorem tick_halted (s : State) (f) (h : s.fault = some f) (n) : tick n s = (.err f [], s) := by simp [tick, h]

/-- A Tick without a Step ages the timers. -/
theorem tick_zero (s : State) (h : s.fault = none) : tick 0 s = (.ok s.drawFlag [], s.ageTimers) := by simp [tick, runSlots, h]

/-- The events of the Steps come after those collected before. -/
theorem runSlots_events (n : Nat) (ev) (s : State) : runSlots n ev s = (ev ++ (runSlots n [] s).1, (runSlots n [] s).2) := by
  induction n generalizing ev s with
  | zero => simp [runSlots]
  | succ n ih =>
    simp only [runSlots]
    cases hst : step s with
    | next t =>
      simp only
      split
      · simp
      · rw [ih, ih ([] ++ s.stepEvent.toList)]; simp [List.append_assoc]
    | fault f => simp
    | refused r => simp

/-- What every Step keeps, the Steps of a Tick keep. -/
theorem runSlots_pres (P : State → Prop) (hP : ∀ s t, step s = .next t → P s → P t) (n : Nat) (ev) (s : State) (h : P s) : P (runSlots n ev s).2 := by
  induction n generalizing ev s with
  | zero => exact h
  | succ n ih =>
    simp only [runSlots]
    cases hst : step s with
    | next t =>
      simp only
      split
      · exact hP s t hst h
      · exact ih _ _ (hP s t hst h)
    | fault f => exact h
    | refused r => exact h

/-- What every Step and the ageing of the timers keep, a Tick keeps. -/
theorem tick_pres (P : State → Prop) (hP : ∀ s t, step s = .next t → P s → P t) (ha : ∀ s : State, P s → P s.ageTimers) (n : Nat) (s : State) (h : P s) : P (tick n s).2 := by
  unfold tick
  split
  · exact h
  · simp only
    have := runSlots_pres P hP n [] s h
    split
    · exact this
    · exact ha _ this

end Sys2Proof.Machine
end

