-- ==== Sys2Proof/Tests/Slice0.lean ====
section
/-! SUPPORT. Tests: what WellFormed refuses, the words of the spec's opcode map, single steps from 95_test_vectors.md (each docstring names
the vectors), and for each statement with hypotheses a state that meets them. -/

namespace Sys2Proof.Tests

open Sys2Proof Sys2Proof.Machine

/-! ### WellFormed -/

/-- 30_encoding.md R95: a SYS operand ending in the key of CLS or of RET has no encoding as SYS. -/
theorem test_wf_refuses_cls_key : Instr.wf (.sys 0x0E0) = false ∧ Instr.wf (.sys 0x3E0) = false := by decide
theorem test_wf_refuses_ret_key : Instr.wf (.sys 0x0EE) = false ∧ Instr.wf (.sys 0xFEE) = false := by decide
theorem test_wf_accepts_other_sys : Instr.wf (.sys 0x0E1) = true ∧ Instr.wf (.sys 0x000) = true := by decide

/-! ### Decoding: words written out from table O (30_encoding.md R102) and vectors E1 to E13 -/

theorem test_decode_cls : decode 0x00E0 = .ok .cls ∧ decode 0x03E0 = .ok .cls := ⟨rfl, rfl⟩
theorem test_decode_ret : decode 0x00EE = .ok .ret ∧ decode 0x0FEE = .ok .ret := ⟨rfl, rfl⟩
theorem test_decode_sys : decode 0x0123 = .ok (.sys 0x123) ∧ decode 0x00E1 = .ok (.sys 0x0E1) := ⟨rfl, rfl⟩
theorem test_decode_jp : decode 0x1234 = .ok (.jp 0x234) := rfl
theorem test_decode_call : decode 0x2ABC = .ok (.call 0xABC) := rfl
theorem test_decode_seVxKk : decode 0x3A42 = .ok (.seVxKk 10 0x42) := rfl
theorem test_decode_sneVxKk : decode 0x4342 = .ok (.sneVxKk 3 0x42) := rfl
theorem test_decode_seVxVy : decode 0x5121 = .ok (.seVxVy 1 2) ∧ decode 0x512F = .ok (.seVxVy 1 2) := ⟨rfl, rfl⟩
theorem test_decode_ldVxKk : decode 0x6005 = .ok (.ldVxKk 0 0x05) := rfl
theorem test_decode_addVxKk : decode 0x7F80 = .ok (.addVxKk 15 0x80) := rfl
theorem test_decode_ldVxVy : decode 0x8120 = .ok (.ldVxVy 1 2) := rfl
theorem test_decode_orVxVy : decode 0x8341 = .ok (.orVxVy 3 4) := rfl
theorem test_decode_andVxVy : decode 0x8562 = .ok (.andVxVy 5 6) := rfl
theorem test_decode_xorVxVy : decode 0x8783 = .ok (.xorVxVy 7 8) := rfl
theorem test_decode_addVxVy : decode 0x8AB4 = .ok (.addVxVy 10 11) := rfl
theorem test_decode_subVxVy : decode 0x8CD5 = .ok (.subVxVy 12 13) := rfl
theorem test_decode_shrVx : decode 0x8126 = .ok (.shrVx 1 2) := rfl
theorem test_decode_subnVxVy : decode 0x8EF7 = .ok (.subnVxVy 14 15) := rfl
theorem test_decode_shlVx : decode 0x8F0E = .ok (.shlVx 15 0) := rfl
theorem test_decode_sneVxVy : decode 0x9125 = .ok (.sneVxVy 1 2) := rfl
theorem test_decode_ldINnn : decode 0xA300 = .ok (.ldINnn 0x300) := rfl
theorem test_decode_jpV0Nnn : decode 0xBFFF = .ok (.jpV0Nnn 0xFFF) := rfl
theorem test_decode_rndVxKk : decode 0xC30F = .ok (.rndVxKk 3 0x0F) := rfl
theorem test_decode_drw : decode 0xD125 = .ok (.drw 1 2 5) := rfl
theorem test_decode_skpVx : decode 0xE09E = .ok (.skpVx 0) := rfl
theorem test_decode_sknpVx : decode 0xE1A1 = .ok (.sknpVx 1) := rfl
theorem test_decode_ldVxDt : decode 0xF107 = .ok (.ldVxDt 1) := rfl
theorem test_decode_ldVxK : decode 0xF00A = .ok (.ldVxK 0) ∧ decode 0xFF0A = .ok (.ldVxK 15) := ⟨rfl, rfl⟩
theorem test_decode_ldDtVx : decode 0xF015 = .ok (.ldDtVx 0) := rfl
theorem test_decode_ldStVx : decode 0xF318 = .ok (.ldStVx 3) := rfl
theorem test_decode_addIVx : decode 0xF21E = .ok (.addIVx 2) := rfl
theorem test_decode_ldFVx : decode 0xF029 = .ok (.ldFVx 0) := rfl
theorem test_decode_ldBVx : decode 0xF533 = .ok (.ldBVx 5) := rfl
theorem test_decode_ldIndVx : decode 0xF255 = .ok (.ldIndVx 2) := rfl
theorem test_decode_ldVxInd : decode 0xF265 = .ok (.ldVxInd 2) := rfl

/-- E5. -/
theorem test_decode_rejects_group8 :
    decode 0x8128 = .error (.unrecognisedGroup8 0x8128) ∧ decode 0x812F = .error (.unrecognisedGroup8 0x812F) ∧
    decode 0x8009 = .error (.unrecognisedGroup8 0x8009) := ⟨rfl, rfl, rfl⟩

/-- E6. -/
theorem test_decode_rejects_groupE :
    decode 0xE000 = .error (.unrecognisedGroupE 0xE000) ∧ decode 0xE19F = .error (.unrecognisedGroupE 0xE19F) ∧
    decode 0xE1A0 = .error (.unrecognisedGroupE 0xE1A0) := ⟨rfl, rfl, rfl⟩

/-- E7. -/
theorem test_decode_rejects_groupF :
    decode 0xF0FF = .error (.unrecognisedGroupF 0xF0FF) ∧ decode 0xF000 = .error (.unrecognisedGroupF 0xF000) ∧
    decode 0xF166 = .error (.unrecognisedGroupF 0xF166) ∧ decode 0xF11F = .error (.unrecognisedGroupF 0xF11F) :=
  ⟨rfl, rfl, rfl, rfl⟩

/-- S8: the fields of 0xD125. -/
theorem test_fields : opField 0xD125 = 0xD#4 ∧ xField 0xD125 = 1 ∧ yField 0xD125 = 2 ∧ nField 0xD125 = 5#4 ∧
    kkField 0xD125 = 0x25#8 ∧ nnnField 0xD125 = 0x125#12 := by decide

/-- E13: the byte at the lower address is the high byte; the bytes that follow are handed back. -/
theorem test_decodeBytes_big_endian : decodeBytes [0x12, 0x34, 0x56] = .ok (.jp 0x234, [0x56]) := rfl

theorem test_decodeBytes_short : decodeBytes [0x12] = .error (.tooFewBytes 1) := rfl

/-- R103: what the encoder writes for the ignored nibbles. -/
theorem test_encode : encode .cls = 0x00E0#16 ∧ encode (.seVxVy 1 2) = 0x5120#16 ∧ encode (.shrVx 1 2) = 0x8126#16 ∧
    encode (.drw 1 2 5) = 0xD125#16 := by decide

/-! ### Single steps -/

/-- The state right after reset with some registers preset. -/
def withRegs (rs : List (Reg × Byte)) (s : State) : State := rs.foldl (fun s p => s.writeV p.1 p.2) s

/-- The state right after reset with some registers preset and I given. -/
def start (rs : List (Reg × Byte)) (i : Word := 0) : State := withRegs rs { State.reset with i := i }

/-- Some bytes placed in memory. -/
def withBytes (a : Nat) (bs : List Byte) (s : State) : State := { s with mem := Memory.putAll s.mem a bs }

/-- Some keys held down. -/
def withKeys (ks : List Key) (s : State) : State := { s with key := ks.foldl (fun v k => v.set k.val true) s.key }

/-- The state after one step that runs the word `w` placed at pc; `s` itself where the step gives no next state. -/
def ran (w : Nat) (s : State) : State :=
  match step (s.withFetchWord 16 w) with
  | .next t => t
  | .fault _ => s
  | .refused _ => s

/-- K18. -/
theorem test_sys : (ran 0x0ABC State.reset).pc = 0x0202#16 ∧ (State.reset.withFetchWord 16 0x0ABC).stepEvent = none := by decide
/-- K1, K3. -/
theorem test_jp : (ran 0x1ABC State.reset).pc = 0x0ABC#16 ∧ (ran 0x1201 State.reset).pc = 0x0201#16 := by decide
/-- K4, K5. -/
theorem test_call :
    let t := ran 0x2400 { State.reset with pc := 0x300, sp := 15 }
    t.stack[15] = 0x0302#16 ∧ t.sp = 16 ∧ t.pc = 0x0400#16 := by decide
/-- K6. -/
theorem test_call_overflow :
    let t := ran 0x2400 { State.reset with pc := 0x300, sp := 16 }
    t.fault = some .stackOverflow ∧ t.pc = 0x0300#16 ∧ t.sp = 16 := by decide
/-- K7. -/
theorem test_ret :
    let t := ran 0x00EE { State.reset with pc := 0x400, sp := 1, stack := State.reset.stack.set 0 0x0302 }
    t.sp = 0 ∧ t.pc = 0x0302#16 := by decide
/-- K8. -/
theorem test_ret_underflow :
    let t := ran 0x00EE { State.reset with pc := 0x400 }
    t.fault = some .stackUnderflow ∧ t.pc = 0x0400#16 ∧ t.sp = 0 := by decide
/-- K9. -/
theorem test_se_kk : (ran 0x3342 (start [(3, 0x42)])).pc = 0x0204#16 ∧ (ran 0x3343 (start [(3, 0x42)])).pc = 0x0202#16 := by decide
/-- K10. -/
theorem test_sne_kk : (ran 0x4342 (start [(3, 0x42)])).pc = 0x0202#16 ∧ (ran 0x4343 (start [(3, 0x42)])).pc = 0x0204#16 := by decide
/-- K11, K12. -/
theorem test_se_vy : (ran 0x5120 (start [(1, 9), (2, 9)])).pc = 0x0204#16 ∧ (ran 0x5120 (start [(1, 9), (2, 8)])).pc = 0x0202#16 := by
  decide
/-- K11, K12. -/
theorem test_sne_vy : (ran 0x9120 (start [(1, 9), (2, 9)])).pc = 0x0202#16 ∧ (ran 0x9120 (start [(1, 9), (2, 8)])).pc = 0x0204#16 := by
  decide
/-- K14, K15. -/
theorem test_jp_v0 :
    (ran 0xBFFF (start [(0, 0xFF)])).pc = 0x10FE#16 ∧ (ran 0xB123 (start [(0, 0x10), (1, 0x80)])).pc = 0x0133#16 := by decide
/-- K16, K17: a pc whose second byte is outside memory is not fetched and not wrapped. -/
theorem test_fetch_out_of_range :
    (ran 0 { State.reset with pc := 0x0FFF }).fault = some .memOutOfRange ∧
    (ran 0 { State.reset with pc := 0x1000 }).pc = 0x1000#16 ∧
    (ran 0 { State.reset with pc := 0x0FFE }).pc = 0x1000#16 := by decide

/-- A1, A2. -/
theorem test_ld_kk : (ran 0x6AFF State.reset).readV 10 = 0xFF#8 ∧ (ran 0x6F07 State.reset).readV 15 = 0x07#8 := by decide
/-- A3, A4. -/
theorem test_add_kk :
    (ran 0x7101 (start [(1, 0xFF)])).v = Vector.replicate 16 0#8 ∧
    (ran 0x7120 (start [(1, 0x10), (15, 1)])).v = (start [(1, 0x30), (15, 1)]).v := by decide
/-- A5. -/
theorem test_ld_vy : (ran 0x8120 (start [(2, 0x7E)])).readV 1 = 0x7E#8 := by decide
/-- A6. -/
theorem test_or : (ran 0x8121 (start [(1, 0xF0), (2, 0x0C), (15, 0x55)])).v = (start [(1, 0xFC), (2, 0x0C), (15, 0x55)]).v := by decide
/-- A7. -/
theorem test_and : (ran 0x8122 (start [(1, 0xF0), (2, 0x3C)])).readV 1 = 0x30#8 := by decide
/-- A8, A9. -/
theorem test_xor : (ran 0x8123 (start [(1, 0xF0), (2, 0x3C)])).readV 1 = 0xCC#8 ∧
    (ran 0x8113 (start [(1, 0xAA)])).readV 1 = 0#8 := by decide
/-- A12, A13. -/
theorem test_add_vy : (ran 0x8124 (start [(1, 0xFF), (2, 0xFF)])).v = (start [(1, 0xFE), (2, 0xFF), (15, 1)]).v ∧
    (ran 0x8114 (start [(1, 0x80)])).v = (start [(15, 1)]).v := by decide
/-- A15, A16. -/
theorem test_add_vf : (ran 0x8F14 (start [(15, 0x01), (1, 0x02)])).readV 15 = 0#8 ∧
    (ran 0x81F4 (start [(1, 0xF0), (15, 0x20)])).v = (start [(1, 0x10), (15, 1)]).v := by decide
/-- A18, A19. -/
theorem test_sub : (ran 0x8125 (start [(1, 5), (2, 5)])).v = (start [(2, 5), (15, 1)]).v ∧
    (ran 0x8125 (start [(1, 5), (2, 6)])).v = (start [(1, 0xFF), (2, 6)]).v := by decide
/-- A21. -/
theorem test_sub_vf : (ran 0x8F15 (start [(15, 5), (1, 9)])).readV 15 = 0#8 := by decide
/-- A22, A23. -/
theorem test_subn : (ran 0x8127 (start [(1, 3), (2, 10)])).v = (start [(1, 7), (2, 10), (15, 1)]).v ∧
    (ran 0x8127 (start [(1, 10), (2, 3)])).v = (start [(1, 0xF9), (2, 3)]).v := by decide
/-- A24. -/
theorem test_subn_equal : (ran 0x8127 (start [(1, 10), (2, 10)])).readV 15 = 1#8 := by decide
/-- A25, A26. -/
theorem test_shr : (ran 0x8126 (start [(1, 3), (2, 0xFF)])).v = (start [(1, 1), (2, 0xFF), (15, 1)]).v ∧
    (ran 0x8106 (start [(1, 0x80)])).v = (start [(1, 0x40)]).v := by decide
/-- A28, A29. -/
theorem test_shr_vf : (ran 0x8F06 (start [(15, 3)])).readV 15 = 1#8 ∧ (ran 0x8F06 (start [(15, 2)])).readV 15 = 0#8 := by decide
/-- A30, A31. -/
theorem test_shl : (ran 0x812E (start [(1, 0x81)])).v = (start [(1, 2), (15, 1)]).v ∧
    (ran 0x810E (start [(1, 0x40)])).v = (start [(1, 0x80)]).v := by decide
/-- A33. -/
theorem test_shl_vf : (ran 0x8F0E (start [(15, 0x80)])).readV 15 = 1#8 := by decide
/-- A34 to A36: whatever the draw is, the result is the draw ANDed with kk. -/
theorem test_rnd : ∃ t, exec (.rndVxKk 3 0x0F) State.reset = .next t ∧ t.readV 3 = Config.rnd 0 &&& 0x0F#8 := ⟨_, rfl, rfl⟩

/-- M1. -/
theorem test_ld_i : (ran 0xAFFF State.reset).i = 0x0FFF#16 := by decide
/-- M3, M4. -/
theorem test_add_i : (ran 0xF21E (start [(2, 5)] 0x0FFE)).i = 0x1003#16 ∧ (ran 0xF21E (start [(2, 1)] 0xFFFF)).i = 0#16 ∧
    (ran 0xF21E (start [(2, 5)] 0x0FFE)).readV 15 = 0#8 := by decide
/-- M5, M6. -/
theorem test_ld_f : (ran 0xF029 (start [(0, 0x0F)])).i = 0x004B#16 ∧ (ran 0xF029 (start [(0, 0x1A)])).i = 0x0032#16 := by decide
/-- S2, M8, M10. -/
theorem test_bcd :
    let t := ran 0xF533 (start [(5, 234)] 0x300)
    t.byteAt 0x300 = 2#8 ∧ t.byteAt 0x301 = 3#8 ∧ t.byteAt 0x302 = 4#8 ∧
    (ran 0xF533 (start [(5, 100)] 0xFFD)).byteAt 0xFFD = 1#8 := by decide
/-- M11. -/
theorem test_bcd_out_of_range :
    let t := ran 0xF533 (start [(5, 100)] 0xFFE)
    t.fault = some .memOutOfRange ∧ t.byteAt 0xFFE = 0#8 ∧ t.pc = 0x0200#16 := by decide
/-- M12, M13. -/
theorem test_dump :
    let t := ran 0xF255 (start [(0, 0x11), (1, 0x22), (2, 0x33), (3, 0x44)] 0x300)
    t.byteAt 0x300 = 0x11#8 ∧ t.byteAt 0x302 = 0x33#8 ∧ t.byteAt 0x303 = 0#8 ∧ t.i = 0x0300#16 ∧
    (ran 0xF055 (start [(0, 0xAB)] 0xFFF)).byteAt 0xFFF = 0xAB#8 := by decide
/-- M14. -/
theorem test_dump_out_of_range :
    let t := ran 0xFF55 (start [(0, 0xAB)] 0xFF1)
    t.fault = some .memOutOfRange ∧ t.byteAt 0xFF1 = 0#8 := by decide
/-- M16, M17. -/
theorem test_load :
    let t := ran 0xF265 (withBytes 0x300 [9, 8, 7, 6] (start [(3, 0x55)] 0x300))
    t.v = (start [(0, 9), (1, 8), (2, 7), (3, 0x55)]).v ∧ t.i = 0x0300#16 ∧
    (ran 0xF065 State.reset).readV 0 = 0xF0#8 := by decide
/-- M18. -/
theorem test_load_out_of_range :
    let t := ran 0xF065 (start [(0, 0x77)] 0x1000)
    t.fault = some .memOutOfRange ∧ t.readV 0 = 0x77#8 := by decide

/-- G1. -/
theorem test_cls :
    let t := ran 0x00E0 { start [(15, 0x77)] with fb := togglePixel blankScreen 3 5 }
    t.fb = blankScreen ∧ t.drawFlag = true ∧ t.readV 15 = 0x77#8 := by decide
/-- G4: a pixel that goes from 1 to 0 is a collision; G9: n = 0 plots nothing; G10: a sprite byte out of range changes nothing. -/
theorem test_drw_collision_and_edges :
    let t := ran 0xD011 (withBytes 0x300 [0x80] { start [] 0x300 with fb := togglePixel blankScreen 0 0 })
    let u := ran 0xD010 (start [(15, 1)] 0xFFFF)
    let w := ran 0xD003 (start [(15, 9)] 0xFFE)
    (t.fb = blankScreen ∧ t.readV 15 = 1#8 ∧ t.drawFlag = true) ∧
    (u.fault = none ∧ u.readV 15 = 0#8 ∧ u.drawFlag = true) ∧
    (w.fault = some .memOutOfRange ∧ w.readV 15 = 9#8 ∧ w.drawFlag = false) := by decide
/-- G8: coordinates wrap and bit 7 is the leftmost; G12: the operand is read before VF is written. -/
theorem test_drw_wraps_and_operands :
    let t := ran 0xD011 (withBytes 0x300 [0x80] (start [(0, 0xFF), (1, 0xFF)] 0x300))
    let u := ran 0xDF11 (withBytes 0x300 [0x80] (start [(15, 5)] 0x300))
    (t.fb = togglePixel blankScreen 31 63 ∧ t.readV 15 = 0#8) ∧ (u.pixel 0 5 = true ∧ u.readV 15 = 0#8) := by decide

/-- T1, T3. -/
theorem test_skp : (ran 0xE09E (withKeys [5] (start [(0, 5)]))).pc = 0x0204#16 ∧
    (ran 0xE09E (withKeys [5] (start [(0, 0xF5)]))).pc = 0x0204#16 ∧ (ran 0xE09E (start [(0, 5)])).pc = 0x0202#16 := by decide
/-- T1, T2. -/
theorem test_sknp : (ran 0xE0A1 (withKeys [5] (start [(0, 5)]))).pc = 0x0202#16 ∧ (ran 0xE0A1 (start [(0, 5)])).pc = 0x0204#16 := by
  decide
/-- T4. -/
theorem test_key_wait_holds :
    let t := ran 0xF30A (start [(3, 0x99)])
    t.readV 3 = 0x99#8 ∧ t.pc = 0x0200#16 ∧ t.wait = true := by decide
/-- T5. -/
theorem test_key_wait_takes_lowest :
    let t := ran 0xF30A { withKeys [7, 12] (start [(3, 0x99)]) with wait := true }
    t.readV 3 = 0x07#8 ∧ t.pc = 0x0202#16 ∧ t.wait = false := by decide
/-- T7. -/
theorem test_ld_vx_dt : (ran 0xF107 { State.reset with dt := 0x2A }).readV 1 = 0x2A#8 := by decide
/-- T8. -/
theorem test_ld_dt_vx : (ran 0xF015 (start [(0, 0x3C)])).dt = 0x3C#8 := by decide
/-- T9. -/
theorem test_ld_st_vx : (ran 0xF018 (start [(0, 2)])).st = 2#8 ∧ beep (ran 0xF018 (start [(0, 2)])) = true := by decide

/-- P6 (b), first word: a no-op with its report. -/
theorem test_unrecognised :
    (ran 0x8128 State.reset).pc = 0x0202#16 ∧ (ran 0x8128 State.reset).v = State.reset.v ∧
    (State.reset.withFetchWord 16 0x8128).stepEvent = some { word := 0x8128, pc := 0x0200 } := by decide

/-! ### Ticks and the host -/

/-- S1. -/
theorem test_tick_one :
    let p := session [.reset, .loadRom [0x60, 0x05], .tick 1] State.reset
    p.1 = [.done, .done, .ticked (.ok false [])] ∧ p.2.readV 0 = 5#8 ∧ p.2.pc = 0x0202#16 := by decide
/-- T11, T13. -/
theorem test_tick_edges :
    (tick 0 State.reset).2 = State.reset ∧
    tick 4 { State.reset with fault := some .memOutOfRange, dt := 5 } =
      (.err .memOutOfRange [], { State.reset with fault := some .memOutOfRange, dt := 5 }) := by decide
/-- T14: a Tick that faults does not age the timers. -/
theorem test_tick_faults :
    let p := tick 3 (State.withFetchWord { State.reset with dt := 5 } 16 0x00EE)
    p.1 = .err .stackUnderflow [] ∧ p.2.dt = 5#8 ∧ p.2.pc = 0x0200#16 := by decide
/-- T12. -/
theorem test_tick_ages_what_it_loads : (tick 1 ((start [(0, 1)]).withFetchWord 16 0xF015)).2.dt = 0#8 := by decide
/-- S10: the largest ROM is accepted, one byte more is not. -/
theorem test_rom_too_large :
    (loadRom (List.replicate 3584 0) State.reset).isSome = true ∧ loadRom (List.replicate 3585 0) State.reset = none := by
  refine ⟨?_, ?_⟩
  · rw [loadRom, List.length_replicate]; rfl
  · rw [loadRom, List.length_replicate]; rfl
/-- Table F of 20_memory.md R62: the first byte of glyph 0 and the last of glyph F; what lies beyond is 0. -/
theorem test_font : State.reset.byteAt 0 = 0xF0#8 ∧ State.reset.byteAt 79 = 0x80#8 ∧ State.reset.byteAt 80 = 0#8 := by decide

/-- P1's listing assembles to P1's ROM bytes (30_encoding.md R104, R105). -/
theorem test_assemble :
    assemble [.op (.ldVxKk 0 0), .op (.ldVxKk 1 5), .label "loop", .op (.addVxVy 0 1), .op (.addVxKk 1 0xFF), .op (.seVxKk 1 0),
      .jpLabel "loop", .label "done", .jpLabel "done"] =
    some [0x60, 0x00, 0x61, 0x05, 0x80, 0x14, 0x71, 0xFF, 0x31, 0x00, 0x12, 0x04, 0x12, 0x0C] := by decide
/-- The directives: a word big-endian, a byte as it is. -/
theorem test_assemble_data : assemble [.dw 0x1234, .db 0x56] = some [0x12, 0x34, 0x56] := by decide
theorem test_asm_text : asmText (.drw 1 2 5) = "DRW V1, V2, 5" ∧ asmText (.ldVxInd 10) = "LD VA, [I]" := ⟨rfl, rfl⟩

/-! ### States and operands that meet the hypotheses of the statements, at the edges of their ranges

Each is named after its statement in Obligations.lean. -/

/-- A pc whose word has no second byte; the last pc that has one, with a word that decodes and with one that does not. -/
theorem wit_StepFetchesDecodesExecutes :
    (∃ s : State, s.fault = none ∧ s.pc = 0x0FFF ∧ 4096 ≤ s.pc.toNat + 1) ∧
    (∃ s : State, s.fault = none ∧ s.pc.toNat + 1 = 4095 ∧ decode (s.byteAt s.pc.toNat ++ s.byteAt (s.pc.toNat + 1)) = .ok (.jp 0x234)) ∧
    (∃ s : State, s.fault = none ∧ s.pc.toNat + 1 = 4095 ∧
      decode (s.byteAt s.pc.toNat ++ s.byteAt (s.pc.toNat + 1)) = .error (.unrecognisedGroup8 0x8128)) :=
  ⟨⟨{ State.reset with pc := 0x0FFF }, rfl, rfl, by decide⟩,
   ⟨withBytes 0xFFE [0x12, 0x34] { State.reset with pc := 0x0FFE }, rfl, rfl, rfl⟩,
   ⟨withBytes 0xFFE [0x81, 0x28] { State.reset with pc := 0x0FFE }, rfl, rfl, rfl⟩⟩

/-- The last pc with a word, and the first without. -/
theorem wit_FetchIsBigEndianAtAnyPc :
    State.fetchWord (withBytes 0xFFE [0x12, 0x34] { State.reset with pc := 0x0FFE }) = some 0x1234 ∧
    State.fetchWord (withBytes 0x201 [0x12, 0x34] { State.reset with pc := 0x0201 }) = some 0x1234 ∧
    State.fetchWord { State.reset with pc := 0x0FFF } = none := ⟨rfl, rfl, rfl⟩

/-- A running core that reports an event, one that faults, and one that does neither. -/
theorem wit_StepCompletesOrFaults :
    (∃ s : State, s.fault = none ∧ s.stepEvent = some { word := 0xF0FF, pc := 0x0200 }) ∧
    (∃ s t : State, s.fault = none ∧ step s = .next t ∧ t.fault = some .stackUnderflow) ∧
    (∃ s t : State, s.fault = none ∧ step s = .next t ∧ t.fault = none) :=
  ⟨⟨State.reset.withFetchWord 16 0xF0FF, rfl, rfl⟩, ⟨State.reset.withFetchWord 16 0x00EE, _, rfl, rfl, rfl⟩,
   ⟨State.reset, _, rfl, rfl, rfl⟩⟩

/-- Each fault arises: a CALL at depth 16, a RET at depth 0, a fetch, a sprite, a digit, a dump and a load out of range. -/
theorem wit_FaultsAriseExactlyInTableX :
    (∃ s t : State, s.fault = none ∧ step s = .next t ∧ t.fault = some .stackOverflow) ∧
    (∃ s t : State, s.fault = none ∧ step s = .next t ∧ t.fault = some .stackUnderflow) ∧
    (∃ s t : State, s.fault = none ∧ 4096 ≤ s.pc.toNat + 1 ∧ step s = .next t ∧ t.fault = some .memOutOfRange) ∧
    (∃ s t : State, s.fault = none ∧ rangeFault s (.drw 0 0 15) ∧ step s = .next t ∧ t.fault = some .memOutOfRange) ∧
    (∃ s t : State, s.fault = none ∧ rangeFault s (.ldBVx 0) ∧ step s = .next t ∧ t.fault = some .memOutOfRange) ∧
    (∃ s t : State, s.fault = none ∧ rangeFault s (.ldIndVx 15) ∧ step s = .next t ∧ t.fault = some .memOutOfRange) ∧
    (∃ s t : State, s.fault = none ∧ rangeFault s (.ldVxInd 15) ∧ step s = .next t ∧ t.fault = some .memOutOfRange) :=
  ⟨⟨State.withFetchWord { State.reset with sp := 16 } 16 0x2400, _, rfl, rfl, rfl⟩,
   ⟨State.reset.withFetchWord 16 0x00EE, _, rfl, rfl, rfl⟩,
   ⟨{ State.reset with pc := 0x0FFF }, _, rfl, by decide, rfl, rfl⟩,
   ⟨(start [] 0xFF2).withFetchWord 16 0xD00F, _, rfl, by show _ ∧ _; decide, rfl, rfl⟩,
   ⟨(start [] 0xFFE).withFetchWord 16 0xF033, _, rfl, by show _ ≤ _; decide, rfl, rfl⟩,
   ⟨(start [] 0xFF1).withFetchWord 16 0xFF55, _, rfl, by show _ ≤ _; decide, rfl, rfl⟩,
   ⟨(start [] 0xFF1).withFetchWord 16 0xFF65, _, rfl, by show _ ≤ _; decide, rfl, rfl⟩⟩

theorem wit_SysIsNoOp : State.reset.fetchWord = some 0 ∧ decode 0 = .ok (.sys 0) := ⟨rfl, rfl⟩

theorem wit_HaltedUntilReset :
    ∃ (s : State) (f : Fault) (op : HostOp), s.fault = some f ∧ op ≠ .reset :=
  ⟨{ State.reset with fault := some .memOutOfRange }, .memOutOfRange, .tick 4, rfl, by decide⟩

/-- Depths 0, 15 and 16. -/
theorem wit_CallPushesReturnAddress :
    (∃ s : State, s.sp.val = 0) ∧ (∃ s : State, s.sp.val = 15) ∧ ∃ s : State, s.sp.val = 16 :=
  ⟨⟨State.reset, rfl⟩, ⟨{ State.reset with sp := 15 }, rfl⟩, ⟨{ State.reset with sp := 16 }, rfl⟩⟩

/-- Depths 1, 16 and 0. -/
theorem wit_RetPopsReturnAddress :
    (∃ (s : State) (k : Fin 16), s.sp.val = k.val + 1 ∧ k = 0) ∧ (∃ (s : State) (k : Fin 16), s.sp.val = k.val + 1 ∧ k = 15) ∧
    ∃ s : State, s.sp.val = 0 :=
  ⟨⟨{ State.reset with sp := 1 }, 0, rfl, rfl⟩, ⟨{ State.reset with sp := 16 }, 15, rfl, rfl⟩, ⟨State.reset, rfl⟩⟩

/-- A CALL at depth 15, and a routine that wrote a register. -/
theorem wit_CallThenRetComesBack :
    ∃ s t u : State, s.sp.val < 16 ∧ exec (.call 0x400) s = .next t ∧ u.stack = t.stack ∧ u.sp = t.sp ∧ u ≠ t :=
  ⟨{ State.reset with sp := 15 }, _,
   { (ran 0x2400 { State.reset with sp := 15 }) with mem := [], i := 7 }, by decide, rfl, by decide, by decide, by decide⟩

theorem wit_ImmediateSkips :
    ((start [(15, 0x42)]).readV 15 = 0x42#8) ∧ ((start [(15, 0x42)]).readV 15 ≠ 0x43#8) := by decide

theorem wit_RegisterSkips :
    ((start [(1, 9), (2, 9)]).readV 1 = (start [(1, 9), (2, 9)]).readV 2) ∧
    ((start [(1, 9), (2, 8)]).readV 1 ≠ (start [(1, 9), (2, 8)]).readV 2) := by decide

/-- An instruction that does not fault, and one that does. -/
theorem wit_NextPcOfEveryInstruction :
    (∃ s t : State, s.fault = none ∧ exec (.seVxKk 0 0) s = .next t ∧ t.fault = none) ∧
    (∃ s t : State, s.fault = none ∧ exec .ret s = .next t ∧ t.fault ≠ none) :=
  ⟨⟨State.reset, _, rfl, rfl, rfl⟩, ⟨State.reset, _, rfl, rfl, by decide⟩⟩

/-- RET with one live entry and CALL with room for one; a range that ends at 4095; an instruction that never faults. -/
theorem wit_EveryInstructionCompletesOutsideTableX :
    (∃ s : State, s.fault = none ∧ ¬ rangeFault s .ret ∧ 0 < s.sp.val) ∧
    (∃ s : State, s.fault = none ∧ ¬ rangeFault s (.call 0x400) ∧ s.sp.val = 15) ∧
    (∃ s : State, s.fault = none ∧ s.i.toNat + 15 = 4095 ∧ ¬ rangeFault s (.ldIndVx 15)) ∧
    (∃ s : State, s.fault = none ∧ ¬ rangeFault s .cls) :=
  ⟨⟨{ State.reset with sp := 1 }, rfl, id, by decide⟩, ⟨{ State.reset with sp := 15 }, rfl, id, rfl⟩,
   ⟨start [] 4080, rfl, by decide, by show ¬ _ ≤ _; decide⟩, ⟨State.reset, rfl, id⟩⟩

/-- For this statement and the six after it: a register other than the destination (and VF), and a bit of a byte. -/
theorem wit_AddImmediateWraps : ∃ x r : Reg, r ≠ x := ⟨15, 0, by decide⟩
theorem wit_LogicIsBitwise : ∃ (x r : Reg) (b : Nat), r ≠ x ∧ b < 8 := ⟨15, 0, 7, by decide⟩
theorem wit_RndMasksTheDraw : ∃ (x r : Reg) (b : Nat), r ≠ x ∧ b < 8 := ⟨15, 0, 7, by decide⟩
theorem wit_AddWritesCarryLast : ∃ x r : Reg, x ≠ vf ∧ r ≠ x ∧ r ≠ vf := ⟨14, 0, by decide⟩
theorem wit_SubtractsWriteNoBorrowLast : ∃ x r : Reg, x ≠ vf ∧ r ≠ x ∧ r ≠ vf := ⟨0, 14, by decide⟩
theorem wit_ShiftsWriteShiftedOutBitLast : ∃ x r : Reg, x ≠ vf ∧ r ≠ x ∧ r ≠ vf := ⟨14, 1, by decide⟩
theorem wit_AddThenSubGivesVxBack : ∃ x y : Reg, x ≠ y ∧ x ≠ vf ∧ y ≠ vf := ⟨14, 0, by decide⟩

/-- I = 4093 and 4094. -/
theorem wit_BcdStoresThreeDigits :
    (start [] 4093).i.toNat + 2 < 4096 ∧ 4096 ≤ (start [] 4094).i.toNat + 2 := by decide

/-- I + x = 4095 and 4096 with x = 15. -/
theorem wit_RegisterDumpStoresV0ToVx :
    (start [] 4080).i.toNat + (15 : Reg).val < 4096 ∧ 4096 ≤ (start [] 4081).i.toNat + (15 : Reg).val := by decide

/-- I + x = 4095 and 4096 with x = 0, and x = 14 with a register above it. -/
theorem wit_RegisterLoadFillsV0ToVx :
    (start [] 4095).i.toNat + (0 : Reg).val < 4096 ∧ 4096 ≤ (start [] 4096).i.toNat + (0 : Reg).val ∧
    (14 : Reg).val ≤ (14 : Reg).val ∧ ¬ (15 : Reg).val ≤ (14 : Reg).val := by decide

theorem wit_DumpThenLoadRestores :
    ∃ s t : State, s.i.toNat + (15 : Reg).val < 4096 ∧ exec (.ldIndVx 15) s = .next t :=
  ⟨start [(0, 1), (15, 2)] 4080, _, by decide, rfl⟩

/-- Addresses 0, 4095 and 4096. -/
theorem wit_ByteAccessIsBoundsChecked :
    State.reset.load 0 1 = some [0xF0] ∧ State.reset.load 4095 1 = some [0] ∧ State.reset.load 4096 1 = none ∧
    State.reset.store 4096 [1] = none := ⟨rfl, rfl, rfl, rfl⟩

/-- A list with a cell at each end of memory; writing the reset contents back removes a cell. -/
theorem wit_EqualReadsAreEqualMemories :
    Memory.wf [(0, 1), (4095, 1)] = true ∧ Memory.put [(0, 1), (4095, 1)] 0 0xF0 = [(4095, 1)] ∧
    Memory.wf [(4095, 0)] = false := by decide

/-- An instruction that stores, and an address on each side of the stored bytes. -/
theorem wit_MemoryFrameOfEveryInstruction :
    ∃ s t : State, exec (.ldBVx 0) s = .next t ∧ 0x2FF < s.indexAddress ∧
      s.indexAddress + storedCount (.ldBVx 0) ≤ 0x303 :=
  ⟨start [(0, 255)] 0x300, _, rfl, by decide, by decide⟩

theorem wit_StoresAreSeenByTheNextFetch :
    ∃ (s t : State) (x j k : Reg) (p : Word), s.i.toNat + x.val < 4096 ∧ k.val = j.val + 1 ∧ k.val ≤ x.val ∧
      exec (.ldIndVx x) s = .next t ∧ p.toNat = s.i.toNat + j.val :=
  ⟨start [(0, 0x12), (1, 0x34)] 4094, _, 1, 0, 1, 4094, by decide, by decide, by decide, rfl, by decide⟩

/-- n = 0 with any I; I + n - 1 = 4095 and 4096; a pixel under the sprite that is on, and sprites that meet none. -/
theorem wit_DrwXorsTheSprite :
    (0#4).toNat = 0 ∧ ((start [] 4081).i.toNat + (15#4).toNat - 1 < 4096) ∧
    (0 < (15#4).toNat ∧ 4096 ≤ (start [] 4082).i.toNat + (15#4).toNat - 1) ∧
    (∃ s : State, s.spriteCovers 63 31 0 1 31 63 ∧ s.pixel 31 63 = true) ∧
    (∀ r c, State.reset.spriteCovers 63 31 0 1 r c → State.reset.pixel r c = false) ∧
    (∃ s : State, ¬ s.spriteCovers 0 0 80 1 0 0) := by
  refine ⟨rfl, by decide, by decide, ⟨{ State.reset with fb := togglePixel blankScreen 31 63 }, ⟨0, 0, ?_⟩, ?_⟩, ?_, State.reset, ?_⟩
  · decide
  · decide
  · intro r c _
    simp [State.pixel, State.reset]
  · rintro ⟨row, col, hr, hc, hb, -⟩
    obtain rfl : row = 0 := by omega
    have : State.reset.byteAt (80 + 0) = 0#8 := by decide
    rw [this] at hb
    simp at hb

/-- A draw that turns a pixel on, with neither coordinate register being VF, and one that turns none on. -/
theorem wit_DrwTwiceRestoresTheScreen :
    (∃ s t : State, s.i.toNat + (1#4).toNat - 1 < 4096 ∧ exec (.drw 0 1 1) s = .next t ∧ t.readV 0 = s.readV 0 ∧
      t.readV 1 = s.readV 1 ∧ ∃ r c, s.pixel r c = false ∧ t.pixel r c = true) ∧
    (∃ s t : State, exec (.drw 0 1 0) s = .next t ∧ t.readV 0 = s.readV 0 ∧ t.readV 1 = s.readV 1 ∧ t.fb = s.fb) :=
  ⟨⟨start [], _, by decide, rfl, by decide, by decide, 0, 0, by decide, by decide⟩,
   ⟨start [], _, rfl, by decide, by decide, by decide⟩⟩

/-- The key's high nibble is ignored; the key is down, and up. -/
theorem wit_KeySkips :
    (15 : Key).val = ((start [(0, 0xFF)]).readV 0).toNat % 16 ∧ (withKeys [15] (start [(0, 0xFF)])).keyDown 15 = true ∧
    (start [(0, 0xFF)]).keyDown 15 = false := by decide

/-- The lowest key is 15, and is 7 of two; no key is down. -/
theorem wit_KeyWaitTakesLowestKeyOrHolds :
    ((withKeys [15] State.reset).keyDown 15 = true ∧ ∀ l : Key, l.val < 15 → (withKeys [15] State.reset).keyDown l = false) ∧
    ((withKeys [7, 12] State.reset).keyDown 7 = true ∧ ∀ l : Key, l.val < 7 → (withKeys [7, 12] State.reset).keyDown l = false) ∧
    (∀ k : Key, State.reset.keyDown k = false) := by decide

theorem wit_KeyWaitTickOnlyAgesTimers :
    ∃ (s : State) (w : Word), s.fault = none ∧ s.fetchWord = some w ∧ decode w = .ok (.ldVxK 15) ∧
      ∀ k : Key, s.keyDown k = false :=
  ⟨State.withFetchWord { State.reset with dt := 1 } 16 0xFF0A, 0xFF0A, rfl, rfl, rfl, by decide⟩

theorem wit_RegisterFrameOfEveryInstruction :
    ∃ s t : State, exec (.ldVxInd 14) s = .next t ∧ mayWriteV 15 (.ldVxInd 14) = false :=
  ⟨start [(15, 3)], _, rfl, by decide⟩

/-- Every clause has an instruction that writes its piece of state. -/
theorem wit_WritersOfEachPieceOfState :
    (∃ s t : State, exec (.addIVx 0) s = .next t ∧ t.i ≠ s.i) ∧
    (∃ s t : State, exec (.call 0) s = .next t ∧ t.stack ≠ s.stack ∧ t.sp ≠ s.sp) ∧
    (∃ s t : State, exec (.ldDtVx 0) s = .next t ∧ t.dt ≠ s.dt) ∧
    (∃ s t : State, exec (.ldStVx 0) s = .next t ∧ t.st ≠ s.st) ∧
    (∃ s t : State, exec (.drw 0 0 1) s = .next t ∧ t.fb ≠ s.fb ∧ t.drawFlag ≠ s.drawFlag) ∧
    (∃ s t : State, exec (.ldVxK 0) s = .next t ∧ t.wait ≠ s.wait) :=
  ⟨⟨start [(0, 1)], _, rfl, by decide⟩, ⟨start [], _, rfl, by decide, by decide⟩, ⟨start [(0, 1)], _, rfl, by decide⟩,
   ⟨start [(0, 1)], _, rfl, by decide⟩, ⟨start [], _, rfl, by decide, by decide⟩, ⟨start [], _, rfl, by decide⟩⟩

theorem wit_FlagWritersLeaveZeroOrOne :
    (∃ s t : State, s.fault = none ∧ exec (.addVxVy 15 15) s = .next t ∧ t.fault = none) ∧
    (∃ s t : State, s.fault = none ∧ exec (.drw 15 15 1) s = .next t ∧ t.fault = none) :=
  ⟨⟨start [(15, 0x80)], _, rfl, rfl, rfl⟩, ⟨start [(15, 0x80)], _, rfl, rfl, rfl⟩⟩

/-- Two states that differ in everything hidden. -/
theorem wit_HiddenStateIsUnobservable :
    ∃ s s' t : State, s.SameVisible s' ∧ step s = .next t ∧ s'.st ≠ s.st ∧ s'.drawFlag ≠ s.drawFlag ∧ s'.wait ≠ s.wait ∧
      s'.stack ≠ s.stack :=
  ⟨State.reset, { State.reset with st := 9, drawFlag := true, wait := true, stack := State.reset.stack.set 0 7 }, _,
   ⟨rfl, rfl, rfl, rfl, fun k hk => absurd hk (Nat.not_lt_zero _), rfl, rfl, rfl, rfl, rfl, rfl⟩, rfl, by decide, by decide,
   by decide, by decide⟩

theorem wit_DecodeOfEncode : Instr.wf (.sys 0xFFF) = true ∧ Instr.wf (.drw 15 15 15) = true := by decide

/-- A word for each branch: CLS and RET with x, SE and SNE with n, and any other word. -/
theorem wit_EncodeOfDecodeClearsIgnoredNibbles :
    decode 0x0FE0 = .ok .cls ∧ decode 0x0FEE = .ok .ret ∧ decode 0x512F = .ok (.seVxVy 1 2) ∧
    decode 0x912F = .ok (.sneVxVy 1 2) ∧ decode 0x8F16 = .ok (.shrVx 15 1) := ⟨rfl, rfl, rfl, rfl, rfl⟩

/-- Two words for each ignored field. -/
theorem wit_IgnoredFieldsHaveNoEffect :
    (decode 0x00E0 = .ok .cls ∧ decode 0x0FE0 = .ok .cls) ∧
    (decode 0x5120 = .ok (.seVxVy 1 2) ∧ decode 0x512F = .ok (.seVxVy 1 2)) ∧
    (decode 0x8106 = .ok (.shrVx 1 0) ∧ decode 0x81F6 = .ok (.shrVx 1 15)) ∧
    (decode 0x0000 = .ok (.sys 0) ∧ decode 0x0FFF = .ok (.sys 0xFFF)) := ⟨⟨rfl, rfl⟩, ⟨rfl, rfl⟩, ⟨rfl, rfl⟩, ⟨rfl, rfl⟩⟩

/-- Reset; a state in a key wait; a state with pc and a live stack entry at their bounds and a stale entry beyond them. -/
theorem wit_EveryStepKeepsTheInvariant :
    (∃ s t : State, s.Inv ∧ s.wait = false ∧ step s = .next t) ∧
    (∃ s t : State, s.Inv ∧ s.wait = true ∧ step s = .next t) ∧
    (∃ s t : State, s.Inv ∧ s.pc = 0x10FE ∧ s.sp = 1 ∧ s.stack[0] = 0x1000 ∧ s.stack[1] = 0xFFFF ∧ step s = .next t) :=
  ⟨⟨State.reset, _, ⟨by decide, ⟨by decide, by decide⟩, fun h => absurd h (by decide)⟩, rfl, rfl⟩,
   ⟨State.withFetchWord { State.reset with wait := true } 16 0xF00A, _,
    ⟨by decide, ⟨by decide, by decide⟩, fun _ => ⟨0xF00A, 0, rfl, rfl⟩⟩, rfl, rfl⟩,
   ⟨{ State.reset with pc := 0x10FE, sp := 1, stack := (State.reset.stack.set 0 0x1000).set 1 0xFFFF }, _,
    ⟨by decide, ⟨by decide, by decide⟩, fun h => absurd h (by decide)⟩, rfl, rfl, by decide, by decide, rfl⟩⟩

/-- A core in a key wait with an operation that is no LoadROM; a core that does not wait with a LoadROM; and the excepted case, a
LoadROM in a key wait, for the memory and pc parts. -/
theorem wit_HostOperationsKeepTheInvariantButALoadInAKeyWait :
    (∃ (s : State) (op : HostOp), s.memOk ∧ s.pcOk ∧ s.waitOk ∧ s.wait = true ∧ ∀ bytes, op ≠ .loadRom bytes) ∧
    (∃ (s : State) (op : HostOp), s.memOk ∧ s.pcOk ∧ s.waitOk ∧ s.wait = false ∧ ∃ bytes, op = .loadRom bytes) ∧
    (∃ (s : State) (op : HostOp), s.memOk ∧ s.pcOk ∧ s.wait = true ∧ ∃ bytes, op = .loadRom bytes) :=
  ⟨⟨State.withFetchWord { State.reset with wait := true } 16 0xF00A, .tick 3, by decide, ⟨by decide, by decide⟩,
     fun _ => ⟨0xF00A, 0, rfl, rfl⟩, rfl, fun _ h => by cases h⟩,
   ⟨State.reset, .loadRom [0x60, 0x05], by decide, ⟨by decide, by decide⟩, fun h => absurd h (by decide), rfl, _, rfl⟩,
   ⟨State.withFetchWord { State.reset with wait := true } 16 0xF00A, .loadRom [0x60, 0x05], by decide, ⟨by decide, by decide⟩, rfl,
     _, rfl⟩⟩

/-- A Tick whose Steps all complete, one with a Step that faults after the first, one that faults at once, and a halted core. -/
theorem wit_TickRunsItsStepsThenAges :
    (∃ (s t : State) (pending : Bool) (events : List UnknownOpcode) (u : State), s.fault = none ∧ step s = .next t ∧
      t.fault = none ∧ tick 1 t = (.ok pending events, u)) ∧
    (∃ (s t : State) (f : Fault) (events : List UnknownOpcode) (u : State), s.fault = none ∧ step s = .next t ∧
      t.fault = none ∧ tick 1 t = (.err f events, u)) ∧
    (∃ (s t : State) (f : Fault), s.fault = none ∧ step s = .next t ∧ t.fault = some f) ∧
    (∃ (s : State) (f : Fault), s.fault = some f) :=
  ⟨⟨State.reset, _, _, _, _, rfl, rfl, rfl, rfl⟩, ⟨{ State.reset with pc := 0x0FFE }, _, _, _, _, rfl, rfl, rfl, rfl⟩,
   ⟨{ State.reset with pc := 0x0FFF }, _, _, rfl, rfl, rfl⟩, ⟨{ State.reset with fault := some .stackOverflow }, _, rfl⟩⟩

theorem wit_SpinningTicksCountTheTimersDown :
    ∃ (s : State) (w : Word) (nnn : BitVec 12), s.fault = none ∧ s.fetchWord = some w ∧ decode w = .ok (.jp nnn) ∧
      s.pc.toNat = nnn.toNat ∧ s.dt = 3 ∧ s.st = 1 :=
  ⟨State.withFetchWord { State.reset with dt := 3, st := 1 } 16 0x1200, 0x1200, 0x200, rfl, rfl, rfl, rfl, rfl, rfl⟩

/-- ROM lengths 3584 and 3585; an address on each side of a ROM of one byte. -/
theorem wit_LoadRomWritesVerbatimOrRejects :
    (List.replicate 3584 (0 : Byte)).length ≤ 3584 ∧ 3584 < (List.replicate 3585 (0 : Byte)).length ∧
    (0x1FF < 0x200 ∧ 0x200 + [(1 : Byte)].length ≤ 0x201) := by
  rw [List.length_replicate, List.length_replicate]
  decide

/-- The first address beyond the font. -/
theorem wit_ResetPutsTableZ : 80 ≤ 80 ∧ State.reset.byteAt 80 = 0#8 := by decide

theorem wit_PlacedWordIsRunNext :
    ∃ (s : State) (w : Word), s.fault = none ∧ s.pc.toNat + 1 < 4096 ∧ decode w = .ok (.ldVxInd 15) :=
  ⟨{ State.reset with pc := 0x0FFE }, 0xFF65, rfl, by decide, rfl⟩

end Sys2Proof.Tests
end

section
/-! SUPPORT. The family of 00_scope.md: a Step completes or faults (R6), and every host operation keeps the invariant (R5,
R220). What an instruction can do to the state the invariant speaks of is said once, in `exec_effect`. -/

namespace Sys2Proof.Machine

/-! ### A Step completes or faults -/

/-- Settles O3, by what is fetched: nothing (the fetch faults), a word of no instruction, or an instruction. -/
theorem stepCompletesOrFaults : Obligations.StepCompletesOrFaults := by
  intro s hs
  cases hf : s.fetchWord with
  | none =>
    have noEvent := stepEvent_none_of_fetch s hs hf
    exact ⟨_, step_fetch_fault s hs hf, .inr ⟨_, rfl, step_halted _ _ rfl⟩, by simp [noEvent]⟩
  | some w =>
    cases hd : decode w with
    | error e => exact ⟨_, step_unrecognised s w e hs hf hd, .inl hs, fun _ _ => rfl⟩
    | ok i =>
      have noEvent := stepEvent_ok s hs w i hf hd
      obtain ⟨t, ht, hfault⟩ := exec_answers i s
      refine ⟨t, (step_exec s w i hs hf hd).trans ht, ?_, by simp [noEvent]⟩
      rcases hfault with hsame | ⟨f, rfl⟩
      · exact .inl (hsame.trans hs)
      · exact .inr ⟨f, rfl, step_halted _ _ rfl⟩

/-! ### What an instruction does to the state of the invariant -/

/-- Memory, the call stack and the wait flag of `t` are as in `s`. -/
structure State.SameControl (s t : State) : Prop where
  mem : t.mem = s.mem
  stack : t.stack = s.stack
  sp : t.sp = s.sp
  wait : t.wait = s.wait

/-- The ways in which instruction `i` can take `s` to `t`, told of memory, pc, the call stack and the wait flag. -/
inductive ExecEffect (i : Instr) (s t : State) : Prop where
  /-- A fault is taken (60_exceptions.md R257). -/
  | faults (f : Fault) (ht : t = { s with fault := some f })
  /-- pc goes on by 2 or 4, or to the target of a jump, and the rest stays. -/
  | moves (same : s.SameControl t) (hpc : t.pc = s.pc + 2 ∨ t.pc = s.pc + 4 ∨ t.pc.toNat ≤ 0x10FE)
  /-- Bytes are stored (LD B and LD [I]). -/
  | stores (u : State) (a : Nat) (bs : List Byte) (hstore : s.store a bs = some u) (same : u.SameControl t)
      (hpc : t.pc = u.pc + 2)
  /-- CALL pushes the address after it. -/
  | calls (u : State) (nnn : BitVec 12) (hpush : s.push (s.pc + 2) = some u) (ht : t = u.jump (zextAddr nnn))
  /-- RET pops the address it goes to. -/
  | returns (u : State) (ret : Word) (hpop : s.pop = some (ret, u)) (ht : t = u.jump ret)
  /-- LD Vx, K takes a key, which ends the wait. -/
  | takesKey (x : Reg) (hi : i = .ldVxK x) (hmem : t.mem = s.mem) (hstack : t.stack = s.stack) (hsp : t.sp = s.sp)
      (hwait : t.wait = false) (hpc : t.pc = s.pc + 2)
  /-- LD Vx, K with no key down waits. -/
  | waits (x : Reg) (hi : i = .ldVxK x) (ht : t = { s with wait := true })

/-- A 12-bit address is a pc within its bound. -/
theorem zextAddr_toNat_le (nnn : BitVec 12) : (zextAddr nnn).toNat ≤ 0xFFF := by
  simp only [zextAddr, BitVec.toNat_setWidth]
  omega

/-- The target of JP V0 is at most 0xFFF + 0xFF, the bound of pc (10_state.md R24). -/
theorem zextAddr_add_zextByte_toNat_le (nnn : BitVec 12) (b : Byte) : (zextAddr nnn + zextByte b).toNat ≤ 0x10FE := by
  simp only [zextAddr, zextByte, BitVec.toNat_add, BitVec.toNat_setWidth]
  omega

/-- A skip moves pc by 4 or by 2. -/
theorem ExecEffect.of_skipIf (i : Instr) (s : State) (taken : Bool) : ExecEffect i s (s.skipIf taken) := by
  refine .moves ⟨rfl, rfl, rfl, rfl⟩ ?_
  cases taken
  · exact .inl rfl
  · exact .inr (.inl rfl)

/-- A store that happens writes memory only. -/
theorem State.store_sameButMem {s u : State} {a : Nat} {bs : List Byte} (h : s.store a bs = some u) :
    u = { s with mem := u.mem } := by
  rw [State.store_eq] at h
  split at h
  · cases h; rfl
  · cases h

/-- A push that happens puts the address on top and leaves everything but the call stack. -/
theorem State.push_some {s u : State} {ret : Word} (h : s.push ret = some u) :
    ∃ hsp : s.sp.val < 16, u = { s with stack := s.stack.set s.sp.val ret, sp := ⟨s.sp.val + 1, by omega⟩ } := by
  by_cases hsp : s.sp.val < 16
  · rw [s.push_eq ret hsp] at h
    cases h
    exact ⟨hsp, rfl⟩
  · rw [s.push_full ret (by omega)] at h
    cases h

/-- A pop that happens gives the top entry and leaves everything but the depth. -/
theorem State.pop_some {s u : State} {ret : Word} (h : s.pop = some (ret, u)) :
    ∃ hsp : 0 < s.sp.val, ret = s.stack[s.sp.val - 1] ∧ u = { s with sp := ⟨s.sp.val - 1, by omega⟩ } := by
  by_cases hsp : 0 < s.sp.val
  · rw [s.pop_eq hsp] at h
    cases h
    exact ⟨hsp, rfl, rfl⟩
  · rw [s.pop_empty (by omega)] at h
    cases h

/-- Everything an instruction can do to memory, pc, the call stack and the wait flag. -/
theorem exec_effect {i : Instr} {s t : State} (h : exec i s = .next t) : ExecEffect i s t := by
  cases i
  case ret =>
    simp only [exec, execRet] at h
    split at h
    · cases h; exact .faults _ rfl
    · rename_i ret u hpop
      cases h; exact .returns u ret hpop rfl
  case call nnn =>
    simp only [exec, execCall] at h
    split at h
    · cases h; exact .faults _ rfl
    · rename_i u hpush
      cases h; exact .calls u nnn hpush rfl
  case jp nnn =>
    cases h
    exact .moves ⟨rfl, rfl, rfl, rfl⟩ (.inr (.inr ((zextAddr_toNat_le nnn).trans (by decide))))
  case jpV0Nnn nnn =>
    cases h
    exact .moves ⟨rfl, rfl, rfl, rfl⟩ (.inr (.inr (zextAddr_add_zextByte_toNat_le nnn _)))
  case ldBVx x =>
    simp only [exec, execLdBVx] at h
    split at h
    · cases h; exact .faults _ rfl
    · rename_i u hstore
      cases h; exact .stores u _ _ hstore ⟨rfl, rfl, rfl, rfl⟩ rfl
  case ldIndVx x =>
    simp only [exec, execLdIndVx] at h
    split at h
    · cases h; exact .faults _ rfl
    · rename_i u hstore
      cases h; exact .stores u _ _ hstore ⟨rfl, rfl, rfl, rfl⟩ rfl
  case ldVxInd x =>
    simp only [exec, execLdVxInd] at h
    split at h
    · cases h; exact .faults _ rfl
    · cases h; exact .moves ⟨rfl, rfl, rfl, rfl⟩ (.inl rfl)
  case drw x y n =>
    simp only [exec, execDrw] at h
    split at h
    · cases h; exact .faults _ rfl
    · cases h; exact .moves ⟨rfl, rfl, rfl, rfl⟩ (.inl rfl)
  case ldVxK x =>
    simp only [exec, execLdVxK] at h
    split at h
    · cases h; exact .takesKey x rfl rfl rfl rfl rfl rfl
    · cases h; exact .waits x rfl rfl
  case seVxKk | sneVxKk | seVxVy | sneVxVy | skpVx | sknpVx =>
    cases h; exact .of_skipIf _ _ _
  -- the rest go on to the next instruction
  all_goals
    cases h
    exact .moves ⟨rfl, rfl, rfl, rfl⟩ (.inl rfl)

/-- Only LD Vx, K writes the wait flag. -/
theorem exec_wait_eq {i : Instr} {s t : State} (h : exec i s = .next t) (hi : ∀ x, i ≠ .ldVxK x) : t.wait = s.wait := by
  cases exec_effect h with
  | faults f ht => rw [ht]
  | moves same => exact same.wait
  | stores u _ _ hstore same => rw [same.wait, State.store_sameButMem hstore]
  | calls u nnn hpush ht =>
    obtain ⟨_, hu⟩ := State.push_some hpush
    rw [ht, State.jump_wait, hu]
  | returns u ret hpop ht =>
    obtain ⟨_, -, hu⟩ := State.pop_some hpop
    rw [ht, State.jump_wait, hu]
  | takesKey x hx => exact absurd hx (hi x)
  | waits x hx => exact absurd hx (hi x)

/-! ### The memory and pc parts of the invariant -/

/-- A pc from which a word was fetched is still within the bound after a skip (10_state.md R24). -/
theorem pc_add_toNat_le {pc p : Word} (hfetch : pc.toNat + 1 < 4096) (hp : p = pc + 2 ∨ p = pc + 4) :
    p.toNat ≤ 0x10FE := by
  rcases hp with rfl | rfl <;> bv_omega

/-- CALL keeps the live entries within their bound: the new one is the address after a fetched word (10_state.md R25). -/
theorem State.push_pcOk {s u : State} (hfetch : s.pc.toNat + 1 < 4096) (h : s.push (s.pc + 2) = some u)
    (hs : s.pcOk) : u.pcOk ∧ u.mem = s.mem := by
  obtain ⟨hsp, rfl⟩ := State.push_some h
  have hret : (s.pc + 2).toNat ≤ 0x1000 := by bv_omega
  refine ⟨⟨hs.1, fun k hk => ?_⟩, rfl⟩
  by_cases hnew : s.sp.val = k.val
  · simpa [hnew] using hret
  · simpa [hnew] using hs.2 k (by simp only at hk; omega)

/-- RET goes to a live entry and leaves fewer of them. -/
theorem State.pop_pcOk {s u : State} {ret : Word} (h : s.pop = some (ret, u)) (hs : s.pcOk) :
    ret.toNat ≤ 0x1000 ∧ u.pcOk ∧ u.mem = s.mem := by
  obtain ⟨hsp, rfl, rfl⟩ := State.pop_some h
  refine ⟨hs.2 ⟨s.sp.val - 1, by omega⟩ (by simp only; omega), ⟨hs.1, fun k hk => hs.2 k ?_⟩, rfl⟩
  simp only at hk
  omega

/-- A jump within the bound keeps the pc part. -/
theorem State.jump_pcOk {s : State} {p : Word} (hp : p.toNat ≤ 0x10FE) (hs : s.pcOk) : (s.jump p).pcOk :=
  ⟨hp, hs.2⟩

/-- The pc part speaks of pc, the call stack and its depth only. -/
theorem State.pcOk_of_sameStack {s t : State} (hstack : t.stack = s.stack) (hsp : t.sp = s.sp) (hpc : t.pc.toNat ≤ 0x10FE)
    (hs : s.pcOk) : t.pcOk := by
  refine ⟨hpc, ?_⟩
  rw [hstack, hsp]
  exact hs.2

/-- Every fetched instruction keeps memory canonical and pc and the live stack entries within their bounds. -/
theorem exec_keeps_memOk_pcOk {i : Instr} {s t : State} (hfetch : s.pc.toNat + 1 < 4096) (h : exec i s = .next t)
    (hm : s.memOk) (hp : s.pcOk) : t.memOk ∧ t.pcOk := by
  cases exec_effect h with
  | faults f ht => subst ht; exact ⟨hm, hp⟩
  | moves same hpc =>
    have hle : t.pc.toNat ≤ 0x10FE := by
      rcases hpc with h2 | h4 | hle
      · exact pc_add_toNat_le hfetch (.inl h2)
      · exact pc_add_toNat_le hfetch (.inr h4)
      · exact hle
    exact ⟨by rw [State.memOk, same.mem]; exact hm, State.pcOk_of_sameStack same.stack same.sp hle hp⟩
  | stores u a bs hstore same hpc =>
    have hu := State.store_sameButMem hstore
    rw [hu] at hpc
    exact ⟨by rw [State.memOk, same.mem]; exact State.store_memWf s u a bs hstore hm,
      State.pcOk_of_sameStack (by rw [same.stack, hu]) (by rw [same.sp, hu]) (pc_add_toNat_le hfetch (.inl hpc)) hp⟩
  | calls u nnn hpush ht =>
    obtain ⟨hu, hmem⟩ := State.push_pcOk hfetch hpush hp
    subst ht
    exact ⟨by rw [State.memOk, State.jump_mem, hmem]; exact hm,
      State.jump_pcOk ((zextAddr_toNat_le nnn).trans (by decide)) hu⟩
  | returns u ret hpop ht =>
    obtain ⟨hret, hu, hmem⟩ := State.pop_pcOk hpop hp
    subst ht
    exact ⟨by rw [State.memOk, State.jump_mem, hmem]; exact hm, State.jump_pcOk (hret.trans (by decide)) hu⟩
  | takesKey _ _ hmem hstack hsp _ hpc =>
    exact ⟨by rw [State.memOk, hmem]; exact hm,
      State.pcOk_of_sameStack hstack hsp (pc_add_toNat_le hfetch (.inl hpc)) hp⟩
  | waits _ _ ht => subst ht; exact ⟨hm, hp⟩

/-- Every Step keeps memory canonical and pc and the live stack entries within their bounds. -/
theorem step_keeps_memOk_pcOk (s t : State) (h : step s = .next t) (hs : s.memOk ∧ s.pcOk) : t.memOk ∧ t.pcOk := by
  obtain ⟨-, ⟨-, rfl⟩ | ⟨w, e, hf, -, rfl⟩ | ⟨w, i, hf, -, hx⟩⟩ := step_cases s t h
  · exact hs
  · exact ⟨hs.1, pc_add_toNat_le (s.fetchWord_inside w hf) (.inl rfl), hs.2.2⟩
  · exact exec_keeps_memOk_pcOk (s.fetchWord_inside w hf) hx hs.1 hs.2

/-! ### The key-wait part of the invariant -/

/-- The key-wait part speaks of memory, pc and the wait flag only. -/
theorem State.waitOk_of_sameFetch {s t : State} (hmem : t.mem = s.mem) (hpc : t.pc = s.pc) (hwait : t.wait = s.wait)
    (hs : s.waitOk) : t.waitOk := by
  have hfetch : t.fetchWord = s.fetchWord := by simp only [State.fetchWord, State.byteAt, hmem, hpc]
  rw [State.waitOk, hwait, hfetch]
  exact hs

/-- A core that does not wait meets the key-wait part. -/
theorem State.waitOk_of_not_wait {s : State} (h : s.wait = false) : s.waitOk := fun hw => by
  rw [h] at hw
  cases hw

/-- What a waiting core fetches is an LD Vx, K. -/
theorem State.waitOk.decode_eq {s : State} {w : Word} (hs : s.waitOk) (hw : s.wait = true) (hf : s.fetchWord = some w) :
    ∃ x, decode w = .ok (.ldVxK x) := by
  obtain ⟨w', x, hf', hd⟩ := hs hw
  rw [hf] at hf'
  cases hf'
  exact ⟨x, hd⟩

/-- LD Vx, K ends the wait or leaves pc at itself. -/
theorem execLdVxK_waitOk {s t : State} {w : Word} {x : Reg} (hf : s.fetchWord = some w) (hd : decode w = .ok (.ldVxK x))
    (h : exec (.ldVxK x) s = .next t) : t.waitOk := by
  simp only [exec, execLdVxK] at h
  split at h
  · cases h; exact State.waitOk_of_not_wait rfl
  · cases h; exact fun _ => ⟨w, x, hf, hd⟩

/-- Every Step keeps the wait flag at an LD Vx, K: a waiting core runs that instruction and no other, and no other sets the
flag. -/
theorem step_keeps_waitOk (s t : State) (h : step s = .next t) (hs : s.waitOk) : t.waitOk := by
  obtain ⟨-, ⟨-, rfl⟩ | ⟨w, e, hf, hd, rfl⟩ | ⟨w, i, hf, hd, hx⟩⟩ := step_cases s t h
  · exact State.waitOk_of_sameFetch rfl rfl rfl hs
  · intro hw
    obtain ⟨x, hk⟩ := hs.decode_eq hw hf
    rw [hd] at hk
    cases hk
  · by_cases hi : ∃ x, i = .ldVxK x
    · obtain ⟨x, rfl⟩ := hi
      exact execLdVxK_waitOk hf hd hx
    · intro hw
      rw [exec_wait_eq hx (fun x e => hi ⟨x, e⟩)] at hw
      obtain ⟨x, hk⟩ := hs.decode_eq hw hf
      rw [hd] at hk
      cases hk
      exact absurd ⟨x, rfl⟩ hi

/-! ### The host's operations -/

/-- Everything LoadROM can do: refuse with no change, or write a ROM that ends below 4096 (45_step_tick_host.md R225). -/
theorem operate_loadRom_cases (bytes : List Byte) (s : State) :
    (operate (.loadRom bytes) s).2 = s ∨
      (0x200 + bytes.length ≤ 4096 ∧
        (operate (.loadRom bytes) s).2 = { s with mem := Memory.putAll s.mem 0x200 bytes }) := by
  by_cases hlong : bytes.length > 3584
  · exact .inl (by simp [operate, loadRom, hlong])
  · exact .inr ⟨by omega, by simp [operate, loadRom, hlong]⟩

/-- Every host operation keeps memory canonical and pc and the live stack entries within their bounds. -/
theorem operate_keeps_memOk_pcOk (op : HostOp) (s : State) (hm : s.memOk) (hp : s.pcOk) :
    (operate op s).2.memOk ∧ (operate op s).2.pcOk := by
  cases op with
  | reset => exact ⟨Memory.reset_wf, show State.reset.pc.toNat ≤ 0x10FE by decide, fun k hk => absurd hk (Nat.not_lt_zero _)⟩
  | loadRom bytes =>
    rcases operate_loadRom_cases bytes s with hsame | ⟨hlen, hload⟩
    · rw [hsame]; exact ⟨hm, hp⟩
    · rw [hload]; exact ⟨Memory.putAll_wf _ _ _ hlen hm, hp⟩
  | tick speed =>
    exact tick_pres (fun u => u.memOk ∧ u.pcOk) step_keeps_memOk_pcOk (fun _ hu => hu) speed s ⟨hm, hp⟩
  | setKeys | snapshot | renderAck => exact ⟨hm, hp⟩

/-- Every host operation but a LoadROM in a key wait keeps the wait flag at an LD Vx, K. -/
theorem operate_keeps_waitOk (op : HostOp) (s : State) (hs : s.waitOk)
    (hload : s.wait = true → ∀ bytes, op ≠ .loadRom bytes) : (operate op s).2.waitOk := by
  cases op with
  | reset => exact State.waitOk_of_not_wait rfl
  | loadRom bytes =>
    have hwait : s.wait = false := by
      by_contra hw
      exact hload (by simpa using hw) bytes rfl
    rcases operate_loadRom_cases bytes s with hsame | ⟨-, hload⟩
    · rw [hsame]; exact hs
    · rw [hload]; exact State.waitOk_of_not_wait hwait
  | tick speed =>
    exact tick_pres State.waitOk step_keeps_waitOk (fun _ => State.waitOk_of_sameFetch rfl rfl rfl) speed s hs
  | snapshot => exact hs
  | setKeys | renderAck => exact State.waitOk_of_sameFetch rfl rfl rfl hs

/-- Settles O51, from the two parts of the invariant that every operation keeps, a Tick by induction over its Steps. -/
theorem hostOperationsKeepTheInvariantButALoadInAKeyWait :
    Obligations.HostOperationsKeepTheInvariantButALoadInAKeyWait := by
  intro op s hm hp
  obtain ⟨hm', hp'⟩ := operate_keeps_memOk_pcOk op s hm hp
  exact ⟨hm', hp', operate_keeps_waitOk op s⟩

end Sys2Proof.Machine
end

section
/-! SUPPORT. The family of 10_state.md: who writes which piece of state (table S of R20, R21, R22, R30), what no instruction
reads (R25, R27, R31, R32), and the invariant of the Step (R24, R25, R32). -/

namespace Sys2Proof.Machine

/-! ### What the instructions with more than one outcome can do -/

/-- Everything RET can do: underflow, or go to the top entry (40_control.md R122). -/
theorem exec_ret_cases {s t : State} (h : exec .ret s = .next t) :
    t = { s with fault := some .stackUnderflow } ∨
      ∃ hsp : 0 < s.sp.val, t = { s with sp := ⟨s.sp.val - 1, by omega⟩, pc := s.stack[s.sp.val - 1] } := by
  simp only [exec, execRet] at h
  split at h
  · cases h; exact .inl rfl
  · rename_i ret u hpop
    obtain ⟨hsp, rfl, rfl⟩ := State.pop_some hpop
    cases h; exact .inr ⟨hsp, rfl⟩

/-- Everything CALL can do: overflow, or push the address after it and go to its target (40_control.md R124). -/
theorem exec_call_cases {nnn : BitVec 12} {s t : State} (h : exec (.call nnn) s = .next t) :
    t = { s with fault := some .stackOverflow } ∨
      ∃ hsp : s.sp.val < 16, t = { s with
        stack := s.stack.set s.sp.val (s.pc + 2), sp := ⟨s.sp.val + 1, by omega⟩, pc := zextAddr nnn } := by
  simp only [exec, execCall] at h
  split at h
  · cases h; exact .inl rfl
  · rename_i u hpush
    obtain ⟨hsp, rfl⟩ := State.push_some hpush
    cases h; exact .inr ⟨hsp, rfl⟩

/-- Everything a store that happens does. -/
theorem State.store_some {s u : State} {a : Nat} {bs : List Byte} (h : s.store a bs = some u) :
    (bs.length = 0 ∨ a + (bs.length - 1) < 4096) ∧ u = { s with mem := Memory.putAll s.mem a bs } := by
  rw [State.store_eq] at h
  split at h
  · rename_i hrange
    cases h; exact ⟨hrange, rfl⟩
  · cases h

/-- Everything LD B can do: a range fault, or the three digits stored (42_index_memory.md R173). -/
theorem exec_ldBVx_cases {x : Reg} {s t : State} (h : exec (.ldBVx x) s = .next t) :
    t = { s with fault := some .memOutOfRange } ∨
      (s.indexAddress + 2 < 4096 ∧
        t = { s with mem := Memory.putAll s.mem s.indexAddress (bcdDigits (s.readV x)), pc := s.pc + 2 }) := by
  simp only [exec, execLdBVx] at h
  split at h
  · cases h; exact .inl rfl
  · rename_i u hstore
    obtain ⟨hrange, rfl⟩ := State.store_some hstore
    cases h; exact .inr ⟨by simpa [bcdDigits] using hrange, rfl⟩

/-- Everything LD [I] can do: a range fault, or V0..Vx stored (42_index_memory.md R174, R176). -/
theorem exec_ldIndVx_cases {x : Reg} {s t : State} (h : exec (.ldIndVx x) s = .next t) :
    t = { s with fault := some .memOutOfRange } ∨
      (s.indexAddress + x.val < 4096 ∧
        t = { s with mem := Memory.putAll s.mem s.indexAddress (s.dumpBytes x), pc := s.pc + 2 }) := by
  simp only [exec, execLdIndVx] at h
  split at h
  · cases h; exact .inl rfl
  · rename_i u hstore
    obtain ⟨hrange, rfl⟩ := State.store_some hstore
    have hlen : (s.dumpBytes x).length = x.val + 1 := by
      simp only [State.dumpBytes, registerCount, List.length_take, Vector.length_toList]; omega
    cases h; exact .inr ⟨by simpa [hlen] using hrange, rfl⟩

/-- Everything LD Vx, [I] can do: a range fault, or V0..Vx filled (42_index_memory.md R175, R176). -/
theorem exec_ldVxInd_cases {x : Reg} {s t : State} (h : exec (.ldVxInd x) s = .next t) :
    t = { s with fault := some .memOutOfRange } ∨
      ∃ bs, s.load s.indexAddress (registerCount x) = some bs ∧
        t = { s with v := fillV s.v 0 bs, pc := s.pc + 2 } := by
  simp only [exec, execLdVxInd] at h
  split at h
  · cases h; exact .inl rfl
  · rename_i bs hload
    cases h; exact .inr ⟨bs, hload, rfl⟩

/-- Everything DRW can do: a range fault, or the sprite plotted, VF the collision and the draw flag set
(43_display.md R192). -/
theorem exec_drw_cases {x y : Reg} {n : BitVec 4} {s t : State} (h : exec (.drw x y n) s = .next t) :
    t = { s with fault := some .memOutOfRange } ∨
      ∃ (sprite : List Byte) (p : Canvas), s.load s.indexAddress n.toNat = some sprite ∧
        p = plotSprite (s.readV x).toNat (s.readV y).toNat sprite { fb := s.fb, collision := false } ∧
        t = State.advance (State.writeV { s with fb := p.fb, drawFlag := true } vf (flagByte p.collision)) := by
  simp only [exec, execDrw] at h
  split at h
  · cases h; exact .inl rfl
  · rename_i sprite hload
    cases h; exact .inr ⟨sprite, _, hload, rfl, rfl⟩

/-- Everything LD Vx, K can do: take the lowest key that is down, or wait (44_keypad_timers.md R202). -/
theorem exec_ldVxK_cases {x : Reg} {s t : State} (h : exec (.ldVxK x) s = .next t) :
    (∃ k, lowestDown s.key = some k ∧
        t = State.advance { s.writeV x (BitVec.ofNat 8 k) with wait := false }) ∨
      (lowestDown s.key = none ∧ t = { s with wait := true }) := by
  simp only [exec, execLdVxK] at h
  split at h
  · rename_i k hk
    cases h; exact .inl ⟨k, hk, rfl⟩
  · rename_i hk
    cases h; exact .inr ⟨hk, rfl⟩

/-! ### What no instruction reads -/

/-- What may differ between states that agree on what instructions read. -/
theorem State.SameVisible.eq_withHidden {s s' : State} (hs : s.SameVisible s') :
    ∃ stack st drawFlag wait, s' = { s with stack := stack, st := st, drawFlag := drawFlag, wait := wait } := by
  refine ⟨s'.stack, s'.st, s'.drawFlag, s'.wait, ?_⟩
  cases s'
  obtain ⟨rfl, rfl, rfl, rfl, -, rfl, rfl, rfl, rfl, rfl, rfl⟩ := hs
  rfl

/-- Two states agree on what instructions read where one is the other with other hidden pieces and the same live entries. -/
theorem State.SameVisible.of_withHidden {s : State} {stack : Vector Word 16} {st : Byte} {drawFlag wait : Bool}
    (live : ∀ k : Fin 16, k.val < s.sp.val → stack[k.val] = s.stack[k.val]) :
    s.SameVisible { s with stack := stack, st := st, drawFlag := drawFlag, wait := wait } :=
  ⟨rfl, rfl, rfl, rfl, live, rfl, rfl, rfl, rfl, rfl, rfl⟩

/-- A next state of the first outcome is matched by one of the second that agrees with it on what instructions read. -/
def SameVisibleOutcome (r r' : Result) : Prop :=
  ∀ t, r = .next t → ∃ t', r' = .next t' ∧ t.SameVisible t'

/-- States that agree on what instructions read are matching outcomes. -/
theorem SameVisibleOutcome.next {t t' : State} (h : t.SameVisible t') : SameVisibleOutcome (.next t) (.next t') :=
  fun _ e => ⟨t', rfl, by cases e; exact h⟩

/-- Taking a fault keeps the agreement. -/
theorem SameVisibleOutcome.raise {s s' : State} (hs : s.SameVisible s') (f : Fault) :
    SameVisibleOutcome (raise f s) (raise f s') := by
  obtain ⟨_, _, _, _, rfl⟩ := hs.eq_withHidden
  exact .next (.of_withHidden hs.live)

section
variable {s s' : State} (hs : s.SameVisible s')
include hs

/-! What is read is equal; what an operation of the state answers agrees again. -/

theorem State.SameVisible.readV_eq (r : Reg) : s'.readV r = s.readV r := by simp only [State.readV, hs.v]

theorem State.SameVisible.indexAddress_eq : s'.indexAddress = s.indexAddress := by simp only [State.indexAddress, hs.i]

theorem State.SameVisible.dumpBytes_eq (x : Reg) : s'.dumpBytes x = s.dumpBytes x := by simp only [State.dumpBytes, hs.v]

theorem State.SameVisible.load_eq (a count : Nat) : s'.load a count = s.load a count := by
  simp only [State.load, hs.mem]

theorem State.SameVisible.fetchWord_eq : s'.fetchWord = s.fetchWord := by
  simp only [State.fetchWord, State.byteAt, hs.pc, hs.mem]

theorem State.SameVisible.advance : s.advance.SameVisible s'.advance := by
  obtain ⟨_, _, _, _, rfl⟩ := hs.eq_withHidden
  exact .of_withHidden hs.live

theorem State.SameVisible.jump (p : Word) : (s.jump p).SameVisible (s'.jump p) := by
  obtain ⟨_, _, _, _, rfl⟩ := hs.eq_withHidden
  exact .of_withHidden hs.live

theorem State.SameVisible.writeI (w : Word) : (s.writeI w).SameVisible (s'.writeI w) := by
  obtain ⟨_, _, _, _, rfl⟩ := hs.eq_withHidden
  exact .of_withHidden hs.live

/-- A store goes through in both states or in neither. -/
theorem State.SameVisible.store (a : Nat) (bs : List Byte) :
    (s.store a bs = none ∧ s'.store a bs = none) ∨
      ∃ u u', s.store a bs = some u ∧ s'.store a bs = some u' ∧ u.SameVisible u' := by
  obtain ⟨_, _, _, _, rfl⟩ := hs.eq_withHidden
  simp only [State.store_eq]
  split
  · exact .inr ⟨_, _, rfl, rfl, .of_withHidden hs.live⟩
  · exact .inl ⟨rfl, rfl⟩

/-- A push goes through in both states or in neither, and makes the same live entry. -/
theorem State.SameVisible.push (ret : Word) :
    (s.push ret = none ∧ s'.push ret = none) ∨
      ∃ u u', s.push ret = some u ∧ s'.push ret = some u' ∧ u.SameVisible u' := by
  have hsp' := congrArg Fin.val hs.sp
  by_cases hsp : s.sp.val < 16
  · refine .inr ⟨_, _, s.push_eq ret hsp, s'.push_eq ret (by omega), ?_⟩
    refine { hs with sp := Fin.ext (by simp only [hsp']), live := fun k hk => ?_ }
    by_cases hnew : s.sp.val = k.val
    · simp [hsp', hnew]
    · simpa [Vector.getElem_set, hsp', hnew] using hs.live k (by simp only at hk; omega)
  · exact .inl ⟨s.push_full ret (by omega), s'.push_full ret (by omega)⟩

/-- A pop goes through in both states or in neither, and gives the same address: the top entry is live. -/
theorem State.SameVisible.pop :
    (s.pop = none ∧ s'.pop = none) ∨
      ∃ ret u u', s.pop = some (ret, u) ∧ s'.pop = some (ret, u') ∧ u.SameVisible u' := by
  have hsp' := congrArg Fin.val hs.sp
  by_cases hsp : 0 < s.sp.val
  · have htop := hs.live ⟨s.sp.val - 1, by omega⟩ (by simp only; omega)
    have hpop' : s'.pop = some (s.stack[s.sp.val - 1], { s' with sp := ⟨s.sp.val - 1, by omega⟩ }) := by
      rw [s'.pop_eq (by omega)]
      simp only [hsp', htop]
    refine .inr ⟨_, _, _, s.pop_eq hsp, hpop', ?_⟩
    exact { hs with sp := rfl, live := fun k hk => hs.live k (by simp only at hk; omega) }
  · exact .inl ⟨s.pop_empty (by omega), s'.pop_empty (by omega)⟩

/-- No instruction tells the two states apart. -/
theorem exec_sameVisible (i : Instr) : SameVisibleOutcome (exec i s) (exec i s') := by
  cases i
  case ret =>
    simp only [exec, execRet]
    rcases hs.pop with ⟨hn, hn'⟩ | ⟨ret, u, u', hu, hu', hv⟩
    · rw [hn, hn']; exact .raise hs _
    · rw [hu, hu']; exact .next (hv.jump ret)
  case call nnn =>
    simp only [exec, execCall, hs.pc]
    rcases hs.push (s.pc + 2) with ⟨hn, hn'⟩ | ⟨u, u', hu, hu', hv⟩
    · rw [hn, hn']; exact .raise hs _
    · rw [hu, hu']; exact .next (hv.jump _)
  case ldBVx x =>
    simp only [exec, execLdBVx, hs.indexAddress_eq, hs.readV_eq]
    rcases hs.store s.indexAddress (bcdDigits (s.readV x)) with ⟨hn, hn'⟩ | ⟨u, u', hu, hu', hv⟩
    · rw [hn, hn']; exact .raise hs _
    · rw [hu, hu']; exact .next hv.advance
  case ldIndVx x =>
    simp only [exec, execLdIndVx, hs.indexAddress_eq, hs.dumpBytes_eq, hs.i]
    rcases hs.store s.indexAddress (s.dumpBytes x) with ⟨hn, hn'⟩ | ⟨u, u', hu, hu', hv⟩
    · rw [hn, hn']; exact .raise hs _
    · rw [hu, hu']; exact .next (hv.writeI _).advance
  case ldVxInd x =>
    simp only [exec, execLdVxInd, hs.indexAddress_eq, hs.load_eq]
    obtain ⟨_, _, _, _, rfl⟩ := hs.eq_withHidden
    split
    · exact .raise hs _
    · exact .next (.of_withHidden hs.live)
  case drw x y n =>
    simp only [exec, execDrw, hs.indexAddress_eq, hs.load_eq]
    obtain ⟨_, _, _, _, rfl⟩ := hs.eq_withHidden
    split
    · exact .raise hs _
    · exact .next (.of_withHidden hs.live)
  case ldVxK x =>
    simp only [exec, execLdVxK, hs.key]
    obtain ⟨_, _, _, _, rfl⟩ := hs.eq_withHidden
    split
    · exact .next (.of_withHidden hs.live)
    · exact .next (.of_withHidden hs.live)
  -- the rest read and write the visible state alone, or write a hidden flag or timer
  all_goals
    obtain ⟨_, _, _, _, rfl⟩ := hs.eq_withHidden
    exact .next (.of_withHidden hs.live)

end

/-- Settles O41, by what is fetched, which both states agree on, and the instruction. -/
theorem hiddenStateIsUnobservable : Obligations.HiddenStateIsUnobservable := by
  intro s s' t hs h
  obtain ⟨hrun, ⟨hf, rfl⟩ | ⟨w, e, hf, hd, rfl⟩ | ⟨w, i, hf, hd, hx⟩⟩ := step_cases s t h
  all_goals
    have hrun' : s'.fault = none := hs.fault.trans hrun
    have hf' := hs.fetchWord_eq.trans hf
  · rw [step_fetch_fault s' hrun' hf']
    exact SameVisibleOutcome.raise hs _ _ rfl
  · exact ⟨_, step_unrecognised s' w e hrun' hf' hd, hs.advance⟩
  · rw [step_exec s' w i hrun' hf' hd]
    exact exec_sameVisible hs i t hx

/-! ### The invariant -/

/-- Settles O50: every Step keeps the memory and pc parts, and the key-wait part. -/
theorem everyStepKeepsTheInvariant : Obligations.EveryStepKeepsTheInvariant := by
  rintro s t ⟨hm, hp, hw⟩ h
  obtain ⟨hm', hp'⟩ := step_keeps_memOk_pcOk s t h ⟨hm, hp⟩
  exact ⟨hm', hp', step_keeps_waitOk s t h hw⟩

/-- Settles O49: memory is the empty list, pc is 0x200, no stack entry is live and the core does not wait. -/
theorem invariantHoldsAtReset : Obligations.InvariantHoldsAtReset := by
  have hpc : State.reset.pc.toNat ≤ 0x10FE := by decide
  exact ⟨Memory.reset_wf, ⟨hpc, fun k hk => absurd hk (Nat.not_lt_zero _)⟩, State.waitOk_of_not_wait rfl⟩

/-! ### Who writes which piece of state -/

/-- Settles O39, by the instruction: the faulting ones by their outcomes, the others by what their one outcome writes. -/
theorem writersOfEachPieceOfState : Obligations.WritersOfEachPieceOfState := by
  intro i s t h
  cases i
  case ret => rcases exec_ret_cases h with rfl | ⟨_, rfl⟩ <;> simp
  case call nnn => rcases exec_call_cases h with rfl | ⟨_, rfl⟩ <;> simp
  case ldBVx x => rcases exec_ldBVx_cases h with rfl | ⟨_, rfl⟩ <;> simp
  case ldIndVx x => rcases exec_ldIndVx_cases h with rfl | ⟨_, rfl⟩ <;> simp
  case ldVxInd x => rcases exec_ldVxInd_cases h with rfl | ⟨_, _, rfl⟩ <;> simp
  case drw x y n => rcases exec_drw_cases h with rfl | ⟨_, _, _, _, rfl⟩ <;> simp
  case ldVxK x => rcases exec_ldVxK_cases h with ⟨_, _, rfl⟩ | ⟨_, rfl⟩ <;> simp
  case addVxVy | subVxVy | shrVx | subnVxVy | shlVx =>
    cases h
    simp [State.writeResultAndFlag]
  all_goals
    cases h
    simp

/-- No Step writes the keys (10_state.md R30). -/
theorem step_key (s t : State) (h : step s = .next t) : t.key = s.key := by
  obtain ⟨-, ⟨-, rfl⟩ | ⟨w, e, -, -, rfl⟩ | ⟨w, i, -, -, hx⟩⟩ := step_cases s t h
  · rfl
  · rfl
  · obtain ⟨-, -, -, -, -, -, -, -, hkey⟩ := writersOfEachPieceOfState i s t hx
    exact hkey

/-- Settles O54, by induction over the Steps of the Tick. -/
theorem tickKeepsTheKeys : Obligations.TickKeepsTheKeys := by
  intro s speed
  exact tick_pres (fun u => u.key = s.key) (fun u t h hu => (step_key u t h).trans hu) (fun _ hu => hu) speed s rfl

/-! ### Who writes the registers -/

/-- A flag is 0 or 1. -/
theorem flagByte_eq_zero_or_one (b : Bool) : flagByte b = 0 ∨ flagByte b = 1 := by
  cases b
  · exact .inl rfl
  · exact .inr rfl

/-- After a flag-setting instruction of the ALU, VF is a flag (41_load_alu.md R140). -/
theorem State.readV_vf_writeResultAndFlag (s : State) (x : Reg) (val : Byte) (flag : Bool) :
    (s.writeResultAndFlag x val flag).readV vf = flagByte flag := by
  rw [State.readV_writeResultAndFlag, if_pos rfl]

/-- Settles O40: VF is the last register each of the six writes, and what they write there is a flag. -/
theorem flagWritersLeaveZeroOrOne : Obligations.FlagWritersLeaveZeroOrOne := by
  intro x y n i s t hi hs h ht
  suffices hflag : ∃ b, t.readV vf = flagByte b by
    obtain ⟨b, hb⟩ := hflag
    rw [hb]
    exact flagByte_eq_zero_or_one b
  rcases hi with rfl | rfl | rfl | rfl | rfl | rfl
  iterate 5
    · cases h
      exact ⟨_, State.readV_vf_writeResultAndFlag _ _ _ _⟩
  · rcases exec_drw_cases h with rfl | ⟨_, p, -, -, rfl⟩
    · cases ht
    · exact ⟨p.collision, by rw [State.readV_advance, State.readV_writeV, if_pos rfl]⟩

/-- A register that is not the destination reads as before. -/
theorem State.readV_writeV_of_ne {x r : Reg} (s : State) (b : Byte) (h : (r == x) = false) :
    (s.writeV x b).readV r = s.readV r := by
  rw [State.readV_writeV, if_neg (beq_eq_false_iff_ne.mp h)]

/-- A register that is neither the destination nor VF reads as before a flag-setting instruction. -/
theorem State.readV_writeResultAndFlag_of_ne {x r : Reg} (s : State) (val : Byte) (flag : Bool)
    (h : (r == x || r == vf) = false) : (s.writeResultAndFlag x val flag).readV r = s.readV r := by
  obtain ⟨hx, hvf⟩ := Bool.or_eq_false_iff.mp h
  rw [State.writeResultAndFlag, State.readV_writeV_of_ne _ _ hvf, State.readV_writeV_of_ne _ _ hx]

/-- A register above those a load fills reads as before (42_index_memory.md R175). -/
theorem fillV_getElem_of_ge (v : Vector Byte 16) (bs : List Byte) (r : Reg) (h : bs.length ≤ r.val) :
    (fillV v 0 bs)[r.val] = v[r.val] := by
  rw [fillV_getElem, dif_neg (by omega)]

/-- A load that happens gives as many bytes as it asks for. -/
theorem State.load_length {s : State} {a count : Nat} {bs : List Byte} (h : s.load a count = some bs) :
    bs.length = count := by
  rw [State.load_eq] at h
  split at h
  · cases h; exact Memory.getAll_length _ _ _
  · cases h

/-- Settles O38, by the instruction and the registers it writes: a range from V0 on, a destination, a destination and VF,
or none. -/
theorem registerFrameOfEveryInstruction : Obligations.RegisterFrameOfEveryInstruction := by
  intro i s t r h hr
  cases i
  case ret => rcases exec_ret_cases h with rfl | ⟨_, rfl⟩ <;> rfl
  case call nnn => rcases exec_call_cases h with rfl | ⟨_, rfl⟩ <;> rfl
  case ldBVx x => rcases exec_ldBVx_cases h with rfl | ⟨_, rfl⟩ <;> rfl
  case ldIndVx x => rcases exec_ldIndVx_cases h with rfl | ⟨_, rfl⟩ <;> rfl
  case ldVxInd x =>
    rcases exec_ldVxInd_cases h with rfl | ⟨bs, hload, rfl⟩
    · rfl
    · have hlen := State.load_length hload
      have hx : ¬ r.val ≤ x.val := of_decide_eq_false hr
      exact fillV_getElem_of_ge s.v bs r (by rw [hlen, registerCount]; omega)
  case drw x y n =>
    rcases exec_drw_cases h with rfl | ⟨_, _, _, _, rfl⟩
    · rfl
    · exact State.readV_writeV_of_ne _ _ hr
  case ldVxK x =>
    rcases exec_ldVxK_cases h with ⟨_, _, rfl⟩ | ⟨_, rfl⟩
    · exact State.readV_writeV_of_ne _ _ hr
    · rfl
  case ldVxKk | addVxKk | ldVxVy | orVxVy | andVxVy | xorVxVy | rndVxKk | ldVxDt =>
    cases h
    exact State.readV_writeV_of_ne _ _ hr
  case addVxVy | subVxVy | shrVx | subnVxVy | shlVx =>
    cases h
    exact State.readV_writeResultAndFlag_of_ne _ _ _ hr
  all_goals
    cases h
    rfl

end Sys2Proof.Machine
end

section
/-! SUPPORT. The family of 20_memory.md: the canonical memory list and single cells (R60, R63), the fetch from memory
(R65, R67), and what instructions store (R66, R72, R73). -/

namespace Sys2Proof.Machine

/-! ### The canonical form -/

/-- Below its first possible entry a canonical list reads as the reset contents. -/
theorem Memory.get_eq_initial_of_lt {m : List Host.Cell} {lo a : Nat} (hm : Memory.wfFrom lo m = true) (ha : a < lo) :
    Memory.get m a = Memory.initial a := by
  induction m generalizing lo with
  | nil => rfl
  | cons c m ih =>
    obtain ⟨k, b⟩ := c
    obtain ⟨hlo, -, -, htail⟩ := (Memory.wfFrom_cons _ _ _ _).mp hm
    rw [Memory.get, if_neg (by omega), ih htail (by omega)]

/-- The first entry of a canonical list tells it apart from every canonical list that begins above that entry. -/
theorem Memory.get_head_ne_of_above {m m' : List Host.Cell} {lo a : Nat} {b : Byte}
    (hm : Memory.wfFrom lo ((a, b) :: m) = true) (hm' : Memory.wfFrom (a + 1) m' = true) :
    a < 4096 ∧ Memory.get ((a, b) :: m) a ≠ Memory.get m' a := by
  obtain ⟨-, ha, hb, -⟩ := (Memory.wfFrom_cons _ _ _ _).mp hm
  rw [Memory.get_eq_initial_of_lt hm' (by omega), Memory.get, if_pos rfl]
  exact ⟨ha, hb⟩

/-- Canonical lists with the same first entry that read alike have tails that read alike. -/
theorem Memory.get_tail_eq {m m' : List Host.Cell} {k a : Nat} {b : Byte} (hm : Memory.wfFrom (k + 1) m = true)
    (hm' : Memory.wfFrom (k + 1) m' = true) (h : Memory.get ((k, b) :: m) a = Memory.get ((k, b) :: m') a) :
    Memory.get m a = Memory.get m' a := by
  by_cases ha : k = a
  · rw [Memory.get_eq_initial_of_lt hm (by omega), Memory.get_eq_initial_of_lt hm' (by omega)]
  · simpa only [Memory.get, if_neg ha] using h

/-- Canonical lists that read alike at every address are equal: their first entries cannot lie at different addresses. -/
theorem Memory.eq_of_get_eq {m m' : List Host.Cell} {lo : Nat} (hm : Memory.wfFrom lo m = true)
    (hm' : Memory.wfFrom lo m' = true) (h : ∀ a, a < 4096 → Memory.get m a = Memory.get m' a) : m = m' := by
  induction m generalizing lo m' with
  | nil =>
    cases m' with
    | nil => rfl
    | cons c' m' =>
      obtain ⟨ha, hne⟩ := Memory.get_head_ne_of_above (m' := []) hm' rfl
      exact absurd (h _ ha).symm hne
  | cons c m ih =>
    obtain ⟨k, b⟩ := c
    cases m' with
    | nil =>
      obtain ⟨ha, hne⟩ := Memory.get_head_ne_of_above (m' := []) hm rfl
      exact absurd (h _ ha) hne
    | cons c' m' =>
      obtain ⟨k', b'⟩ := c'
      obtain ⟨-, hk, hb, htail⟩ := (Memory.wfFrom_cons _ _ _ _).mp hm
      obtain ⟨-, hk', hb', htail'⟩ := (Memory.wfFrom_cons _ _ _ _).mp hm'
      rcases Nat.lt_trichotomy k k' with hlt | rfl | hgt
      · have habove := (Memory.wfFrom_cons _ _ _ _).mpr ⟨hlt, hk', hb', htail'⟩
        exact absurd (h k hk) (Memory.get_head_ne_of_above hm habove).2
      · have hbyte := h k hk
        simp only [Memory.get, if_true] at hbyte
        subst hbyte
        rw [ih htail htail' fun a ha => Memory.get_tail_eq htail htail' (h a ha)]
      · have habove := (Memory.wfFrom_cons _ _ _ _).mpr ⟨hgt, hk, hb, htail⟩
        exact absurd (h k' hk').symm (Memory.get_head_ne_of_above hm' habove).2

/-- Settles O28, by induction over the two lists from the lowest address on. -/
theorem equalReadsAreEqualMemories : Obligations.EqualReadsAreEqualMemories :=
  fun _ _ hm hm' h => Memory.eq_of_get_eq hm hm' h

/-! ### One byte -/

/-- Settles O27: the range of one byte is that byte's address alone, and a store of it is one `Memory.put`. -/
theorem byteAccessIsBoundsChecked : Obligations.ByteAccessIsBoundsChecked := by
  intro s a b
  constructor
  · intro ha
    refine ⟨?_, { s with mem := Memory.put s.mem a b }, ?_, rfl, Memory.get_put_same s.mem a b,
      fun a' hne => Memory.get_put_ne s.mem a a' b hne⟩
    · rw [State.load_eq, if_pos (.inr ha)]
      rfl
    · rw [State.store_eq, if_pos (.inr ha)]
      rfl
  · intro ha
    have hout : ¬ (1 = 0 ∨ a + (1 - 1) < 4096) := by omega
    exact ⟨by rw [State.load_eq, if_neg hout], by rw [State.store_eq, List.length_singleton, if_neg hout]⟩

/-! ### The fetch -/

/-- Settles O2: a word is its value, and that of the word fetched is given by its two bytes. -/
theorem fetchIsBigEndianAtAnyPc : Obligations.FetchIsBigEndianAtAnyPc := by
  intro s w
  rw [← wordOfBytes_toNat, BitVec.toNat_inj]
  constructor
  · intro h
    have hin := s.fetchWord_inside w h
    rw [s.fetchWord_some hin] at h
    exact ⟨hin, (Option.some.inj h).symm⟩
  · rintro ⟨hin, rfl⟩
    exact s.fetchWord_some hin

/-! ### What instructions store -/

/-- A register dump stores one byte for each of V0..Vx (42_index_memory.md R174). -/
@[simp] theorem State.dumpBytes_length (s : State) (x : Reg) : (s.dumpBytes x).length = x.val + 1 := by
  simp only [State.dumpBytes, registerCount, List.length_take, Vector.length_toList]
  omega

/-- The `k`-th byte a register dump stores is Vk. -/
theorem State.dumpBytes_getElem (s : State) (x k : Reg) (h : k.val < (s.dumpBytes x).length) :
    (s.dumpBytes x)[k.val] = s.readV k := by
  simp only [State.dumpBytes, List.getElem_take, Vector.getElem_toList, State.readV]

/-- LD B and LD [I] are the only instructions that write memory (20_memory.md R66, table W). -/
theorem exec_mem_eq {i : Instr} {s t : State} (h : exec i s = .next t) (hB : ∀ x, i ≠ .ldBVx x)
    (hInd : ∀ x, i ≠ .ldIndVx x) : t.mem = s.mem := by
  cases i
  case ldBVx x => exact absurd rfl (hB x)
  case ldIndVx x => exact absurd rfl (hInd x)
  case ret => rcases exec_ret_cases h with rfl | ⟨_, rfl⟩ <;> rfl
  case call nnn => rcases exec_call_cases h with rfl | ⟨_, rfl⟩ <;> rfl
  case ldVxInd x => rcases exec_ldVxInd_cases h with rfl | ⟨_, _, rfl⟩ <;> rfl
  case drw x y n => rcases exec_drw_cases h with rfl | ⟨_, _, _, _, rfl⟩ <;> rfl
  case ldVxK x => rcases exec_ldVxK_cases h with ⟨_, _, rfl⟩ | ⟨_, rfl⟩ <;> rfl
  -- the rest have one outcome
  all_goals
    cases h
    rfl

/-- Settles O29: two instructions store a range of known length, unless they fault, and no other writes memory. -/
theorem memoryFrameOfEveryInstruction : Obligations.MemoryFrameOfEveryInstruction := by
  intro i s t a h ha
  by_cases hB : ∃ x, i = .ldBVx x
  · obtain ⟨x, rfl⟩ := hB
    rcases exec_ldBVx_cases h with rfl | ⟨-, rfl⟩
    · rfl
    · exact Memory.get_putAll_outside _ _ _ _ ha
  by_cases hInd : ∃ x, i = .ldIndVx x
  · obtain ⟨x, rfl⟩ := hInd
    rcases exec_ldIndVx_cases h with rfl | ⟨-, rfl⟩
    · rfl
    · exact Memory.get_putAll_outside _ _ _ _ (by rw [State.dumpBytes_length]; exact ha)
  · have hmem := exec_mem_eq h (fun x e => hB ⟨x, e⟩) (fun x e => hInd ⟨x, e⟩)
    rw [State.byteAt, State.byteAt, hmem]

/-- A register dump whose range lies in memory stores V0..Vx and goes on (42_index_memory.md R174, R176). -/
theorem exec_ldIndVx_inside {x : Reg} {s : State} (h : s.indexAddress + x.val < 4096) :
    exec (.ldIndVx x) s =
      .next { s with mem := Memory.putAll s.mem s.indexAddress (s.dumpBytes x), pc := s.pc + 2 } := by
  have hstore := s.store_eq s.indexAddress (s.dumpBytes x)
  rw [State.dumpBytes_length, if_pos (.inr h)] at hstore
  simp only [exec, execLdIndVx, hstore]
  rfl

/-- After a register dump that lies in memory, the byte at I + k is Vk. -/
theorem byteAt_of_exec_ldIndVx {x k : Reg} {s t : State} (hin : s.indexAddress + x.val < 4096) (hk : k.val ≤ x.val)
    (h : exec (.ldIndVx x) s = .next t) : t.byteAt (s.indexAddress + k.val) = s.readV k := by
  rw [exec_ldIndVx_inside hin] at h
  cases h
  have hlen : k.val < (s.dumpBytes x).length := by rw [State.dumpBytes_length]; omega
  exact (Memory.get_putAll_inside _ _ _ _ hlen).trans (s.dumpBytes_getElem x k hlen)

/-- Settles O30: the two bytes at pc are Vj and Vk, which the dump stored side by side. -/
theorem storesAreSeenByTheNextFetch : Obligations.StoresAreSeenByTheNextFetch := by
  intro x s t j k hin hkj hkx h p hp
  have hj : t.byteAt p.toNat = s.readV j := by
    rw [hp]
    exact byteAt_of_exec_ldIndVx hin (by omega) h
  have hk : t.byteAt (p.toNat + 1) = s.readV k := by
    rw [hp, Nat.add_assoc, ← hkj]
    exact byteAt_of_exec_ldIndVx hin hkx h
  rw [← hj, ← hk]
  exact ⟨_, State.fetchWord_some { t with pc := p } (by simp only; omega), wordOfBytes_toNat _ _⟩

end Sys2Proof.Machine
end

section
/-! SUPPORT. The family of 30_encoding.md: decoder and encoder are inverse to each other but for the ignored fields, the
dispatch is table O, and a listing assembles to its words. The masks are turned into tests of fields once, and then nothing
reasons about single bits. -/

namespace Sys2Proof

open Machine

/-! ### A mask test of table O is a test of the dispatch keys -/

/-- The rows of one key: `op`. -/
theorem and_mask_F000_eq_iff (w : Word) {p : Word} (hp : p &&& 0xF000#16 = p) :
    w &&& 0xF000#16 = p ↔ opField w = p.extractLsb' 12 4 := by
  change _ ↔ opField w = opField p
  rw [and_mask_F000] at hp ⊢
  constructor
  · rintro rfl
    simp
  · intro hop
    rw [hop, hp]

/-- The rows keyed by `op` and `kk`: groups 0, E and F. -/
theorem and_mask_F0FF_eq_iff (w : Word) {p : Word} (hp : p &&& 0xF0FF#16 = p) :
    w &&& 0xF0FF#16 = p ↔ opField w = p.extractLsb' 12 4 ∧ kkField w = p.extractLsb' 0 8 := by
  change _ ↔ opField w = opField p ∧ kkField w = kkField p
  rw [and_mask_F0FF] at hp ⊢
  constructor
  · rintro rfl
    simp
  · rintro ⟨hop, hkk⟩
    rw [hop, hkk, hp]

/-- The rows keyed by `op` and `n`: group 8. -/
theorem and_mask_F00F_eq_iff (w : Word) {p : Word} (hp : p &&& 0xF00F#16 = p) :
    w &&& 0xF00F#16 = p ↔ opField w = p.extractLsb' 12 4 ∧ nField w = p.extractLsb' 0 4 := by
  change _ ↔ opField w = opField p ∧ nField w = nField p
  rw [and_mask_F00F] at hp ⊢
  constructor
  · rintro rfl
    simp
  · rintro ⟨hop, hn⟩
    rw [hop, hn, hp]

/-- A word is determined by its four nibbles. -/
theorem word_ext {w w' : Word} (hop : opField w = opField w') (hx : xField w = xField w') (hy : yField w = yField w')
    (hn : nField w = nField w') : w = w' := by
  rw [← word_packXYN w, hop, hx, hy, hn, word_packXYN]

/-! ### Masking a word masks its fields -/

theorem opField_and (w m : Word) : opField (w &&& m) = opField w &&& opField m := BitVec.extractLsb'_and ..

theorem nField_and (w m : Word) : nField (w &&& m) = nField w &&& nField m := BitVec.extractLsb'_and ..

theorem xField_and (w m : Word) : xField (w &&& m) = (w.extractLsb' 8 4 &&& m.extractLsb' 8 4).toFin :=
  congrArg BitVec.toFin (BitVec.extractLsb'_and ..)

theorem yField_and (w m : Word) : yField (w &&& m) = (w.extractLsb' 4 4 &&& m.extractLsb' 4 4).toFin :=
  congrArg BitVec.toFin (BitVec.extractLsb'_and ..)

/-- Clearing `n`: three nibbles are masked by ones and one by zeros. -/
theorem and_mask_FFF0 (w : Word) : w &&& 0xFFF0#16 = packXYN (opField w) (xField w) (yField w) 0#4 := by
  apply word_ext
  · rw [opField_packXYN, opField_and]
    exact BitVec.and_allOnes
  · rw [xField_packXYN, xField_and]
    exact congrArg BitVec.toFin BitVec.and_allOnes
  · rw [yField_packXYN, yField_and]
    exact congrArg BitVec.toFin BitVec.and_allOnes
  · rw [nField_packXYN, nField_and]
    exact BitVec.and_zero

/-- Clearing `y`. -/
theorem and_mask_FF0F (w : Word) : w &&& 0xFF0F#16 = packXYN (opField w) (xField w) 0 (nField w) := by
  apply word_ext
  · rw [opField_packXYN, opField_and]
    exact BitVec.and_allOnes
  · rw [xField_packXYN, xField_and]
    exact congrArg BitVec.toFin BitVec.and_allOnes
  · rw [yField_packXYN, yField_and]
    exact congrArg BitVec.toFin BitVec.and_zero
  · rw [nField_packXYN, nField_and]
    exact BitVec.and_allOnes

/-! ### Decode after encode -/

/-- Settles O42, by the group of the instruction: its word's keys lead the dispatch to it, and its word's fields are its
operands. -/
theorem decodeOfEncode : Obligations.DecodeOfEncode := by
  intro i hwf
  cases i with
  | cls | ret => rfl
  | sys nnn =>
    have hkey : nnn.setWidth 8 ≠ 0xE0#8 ∧ nnn.setWidth 8 ≠ 0xEE#8 := by
      simpa [Instr.wf, sysOperandOk] using hwf
    simp [encode, decode, decodeGroup0, hkey]
  | ldVxVy | orVxVy | andVxVy | xorVxVy | addVxVy | subVxVy | shrVx | subnVxVy | shlVx =>
    simp [encode, decode, decodeGroup8]
  | skpVx | sknpVx => simp [encode, decode, decodeGroupE]
  | ldVxDt | ldVxK | ldDtVx | ldStVx | addIVx | ldFVx | ldBVx | ldIndVx | ldVxInd =>
    simp [encode, decode, decodeGroupF]
  | _ => simp [encode, decode]

/-! ### Encode after decode -/

/-- The word with 0 in the ignored fields the syntax does not keep: `x` of CLS and RET, `n` of groups 5 and 9 (R95, R99). -/
def clearIgnored (w : Word) : Word :=
  if w &&& 0xF0FF#16 = 0x00E0#16 ∨ w &&& 0xF0FF#16 = 0x00EE#16 then w &&& 0x00FF#16
  else if w &&& 0xF000#16 = 0x5000#16 ∨ w &&& 0xF000#16 = 0x9000#16 then w &&& 0xFFF0#16
  else w

/-- The word of CLS or RET without its `x` is its key. -/
theorem clearIgnored_of_key {w p : Word} (hw : w &&& 0xF0FF#16 = p) (hp : p = 0x00E0#16 ∨ p = 0x00EE#16) :
    clearIgnored w = p := by
  have hlow : w &&& 0x00FF#16 = p &&& 0x00FF#16 := by
    rw [← hw, BitVec.and_assoc]
    rfl
  rw [clearIgnored, hw, if_pos hp, hlow]
  rcases hp with rfl | rfl <;> rfl

/-- SE and SNE on two registers drop `n`. -/
theorem clearIgnored_of_op_5_9 {w : Word} {op : BitVec 4} (hop : opField w = op) (h : op = 5#4 ∨ op = 9#4) :
    clearIgnored w = packXYN op (xField w) (yField w) 0#4 := by
  subst hop
  have hne : opField w ≠ 0#4 := by rcases h with h | h <;> simp [h]
  simp [clearIgnored, and_mask_F0FF_eq_iff, and_mask_F000_eq_iff, and_mask_FFF0, h, hne]

/-- Any other word keeps every field. -/
theorem clearIgnored_eq_self {w : Word} (h0 : opField w = 0#4 → kkField w ≠ 0xE0#8 ∧ kkField w ≠ 0xEE#8)
    (h5 : opField w ≠ 5#4) (h9 : opField w ≠ 9#4) : clearIgnored w = w := by
  have hkey : ¬(w &&& 0xF0FF#16 = 0x00E0#16 ∨ w &&& 0xF0FF#16 = 0x00EE#16) := by
    rw [and_mask_F0FF_eq_iff w rfl, and_mask_F0FF_eq_iff w rfl]
    rintro (⟨hop, hkk⟩ | ⟨hop, hkk⟩)
    · exact (h0 hop).1 hkk
    · exact (h0 hop).2 hkk
  have hgroup : ¬(w &&& 0xF000#16 = 0x5000#16 ∨ w &&& 0xF000#16 = 0x9000#16) := by
    rw [and_mask_F000_eq_iff w rfl, and_mask_F000_eq_iff w rfl]
    exact not_or.mpr ⟨h5, h9⟩
  rw [clearIgnored, if_neg hkey, if_neg hgroup]

/-- Outside groups 0, 5 and 9 the syntax keeps every field. -/
theorem clearIgnored_of_kept {w : Word} {op : BitVec 4} (hop : opField w = op)
    (hkept : op ≠ 0#4 ∧ op ≠ 5#4 ∧ op ≠ 9#4) : clearIgnored w = w := by
  subst hop
  obtain ⟨h0, h5, h9⟩ := hkept
  exact clearIgnored_eq_self (fun h => absurd h h0) h5 h9

/-- The low byte of `nnn` is `kk`. -/
theorem setWidth_nnnField (w : Word) : (nnnField w).setWidth 8 = kkField w := by
  rw [← kkField_packNnn (opField w), word_packNnn]

/-! What the encoder packs from a word's own keys and fields is the word. -/

theorem packXKk_eq_self {w : Word} {op : BitVec 4} {kk : Byte} (hop : opField w = op) (hkk : kkField w = kk) :
    packXKk op (xField w) kk = w := by
  rw [← hop, ← hkk, word_packXKk]

theorem packXYN_eq_self {w : Word} {op n : BitVec 4} (hop : opField w = op) (hn : nField w = n) :
    packXYN op (xField w) (yField w) n = w := by
  rw [← hop, ← hn, word_packXYN]

theorem packNnn_eq_self {w : Word} {op : BitVec 4} (hop : opField w = op) : packNnn op (nnnField w) = w := by
  rw [← hop, word_packNnn]

theorem encode_of_decodeGroup8 {w : Word} {i : Instr} (hop : opField w = 8#4) (h : decodeGroup8 w = .ok i) :
    i.wf = true ∧ encode i = w := by
  unfold decodeGroup8 at h
  split_ifs at h
  all_goals
    cases h
    exact ⟨rfl, packXYN_eq_self hop ‹_›⟩

theorem encode_of_decodeGroupE {w : Word} {i : Instr} (hop : opField w = 0xE#4) (h : decodeGroupE w = .ok i) :
    i.wf = true ∧ encode i = w := by
  unfold decodeGroupE at h
  split_ifs at h
  all_goals
    cases h
    exact ⟨rfl, packXKk_eq_self hop ‹_›⟩

theorem encode_of_decodeGroupF {w : Word} {i : Instr} (hop : opField w = 0xF#4) (h : decodeGroupF w = .ok i) :
    i.wf = true ∧ encode i = w := by
  unfold decodeGroupF at h
  split_ifs at h
  all_goals
    cases h
    exact ⟨rfl, packXKk_eq_self hop ‹_›⟩

/-- A word that decodes encodes back to itself but for the ignored fields. -/
theorem encode_of_decode {w : Word} {i : Instr} (h : decode w = .ok i) : i.wf = true ∧ encode i = clearIgnored w := by
  revert h
  fun_cases decode w <;> intro h
  -- group 0
  case case1 hop =>
    cases h
    fun_cases decodeGroup0 w with
    | case1 hkk => exact ⟨rfl, (clearIgnored_of_key (by rw [and_mask_F0FF, hop, hkk]; rfl) (.inl rfl)).symm⟩
    | case2 _ hkk => exact ⟨rfl, (clearIgnored_of_key (by rw [and_mask_F0FF, hop, hkk]; rfl) (.inr rfl)).symm⟩
    | case3 hCls hRet =>
      have hkept := clearIgnored_eq_self (w := w) (fun _ => ⟨hCls, hRet⟩) (by simp [hop]) (by simp [hop])
      exact ⟨by simp [Instr.wf, sysOperandOk, setWidth_nnnField, hCls, hRet], (packNnn_eq_self hop).trans hkept.symm⟩
  -- groups 5 and 9, whose `n` is dropped
  case case6 hop =>
    cases h
    exact ⟨rfl, (clearIgnored_of_op_5_9 hop (.inl rfl)).symm⟩
  case case10 hop =>
    cases h
    exact ⟨rfl, (clearIgnored_of_op_5_9 hop (.inr rfl)).symm⟩
  -- groups 1, 2, A and B in format NNN, then 3, 4, 6, 7 and C in format XKK, then D in format XYN
  case case2 hop | case3 hop | case11 hop | case12 hop =>
    cases h
    exact ⟨rfl, (packNnn_eq_self hop).trans (clearIgnored_of_kept hop (by decide)).symm⟩
  case case4 hop | case5 hop | case7 hop | case8 hop | case13 hop =>
    cases h
    exact ⟨rfl, (packXKk_eq_self hop rfl).trans (clearIgnored_of_kept hop (by decide)).symm⟩
  case case14 hop =>
    cases h
    exact ⟨rfl, (packXYN_eq_self hop rfl).trans (clearIgnored_of_kept hop (by decide)).symm⟩
  -- groups 8, E and F
  case case9 hop =>
    rw [clearIgnored_of_kept hop (by decide)]
    exact encode_of_decodeGroup8 hop h
  case case15 hop =>
    rw [clearIgnored_of_kept hop (by decide)]
    exact encode_of_decodeGroupE hop h
  case case16 =>
    have hop : opField w = 0xF#4 := by bv_omega
    rw [clearIgnored_of_kept hop (by decide)]
    exact encode_of_decodeGroupF hop h

/-- Settles O43: every case of the decoder reads the fields that the encoder packs. -/
theorem encodeOfDecodeClearsIgnoredNibbles : Obligations.EncodeOfDecodeClearsIgnoredNibbles :=
  fun _ _ h => encode_of_decode h

/-! ### The dispatch is table O -/

/-- The table's answer is the first accepting row's reading of the word. -/
theorem decodeByTable_eq_map (w : Word) :
    decodeByTable w = (tableO.find? fun r => r.accepts w).map fun r => r.build w := by
  rw [decodeByTable]
  cases tableO.find? fun r => r.accepts w <;> rfl

/-- The rows are tried in order. -/
theorem map_build_find?_cons (r : OpcodeRow) (rows : List OpcodeRow) (w : Word) :
    ((r :: rows).find? fun r => r.accepts w).map (fun r => r.build w) =
      if w &&& r.mask = r.pattern then some (r.build w) else (rows.find? fun r => r.accepts w).map fun r => r.build w := by
  by_cases h : w &&& r.mask = r.pattern <;> simp [OpcodeRow.accepts, h]

/-- Settles O44, by the primary key: it leaves one row of the table, or the rows of one group in the order of its keys. -/
theorem dispatchIsFirstMatchingRow : Obligations.DispatchIsFirstMatchingRow := by
  intro w
  simp only [decodeByTable_eq_map, tableO, tableOFirst, tableOSecond, List.cons_append, List.nil_append,
    map_build_find?_cons, List.find?_nil, Option.map_none]
  -- every row tests keys
  simp only [and_mask_F000_eq_iff, and_mask_F00F_eq_iff, and_mask_F0FF_eq_iff, BitVec.reduceAnd, BitVec.zero_and,
    BitVec.reduceExtractLsb', BitVec.extractLsb'_zero]
  fun_cases decode w
  case case1 hop =>
    simp only [hop, true_and, ↓reduceIte]
    fun_cases decodeGroup0 w <;> simp [*]
  case case9 hop =>
    simp only [hop, BitVec.reduceEq, false_and, true_and, ↓reduceIte]
    fun_cases decodeGroup8 w <;> simp [*] <;> exact ⟨rfl, rfl⟩
  case case15 hop =>
    simp only [hop, BitVec.reduceEq, false_and, true_and, ↓reduceIte]
    fun_cases decodeGroupE w <;> simp [*]
  case case16 =>
    have hop : opField w = 0xF#4 := by bv_omega
    simp only [hop, BitVec.reduceEq, false_and, true_and, ↓reduceIte]
    fun_cases decodeGroupF w <;> simp [*] <;> rfl
  -- the groups of one row
  all_goals
    rename_i hop
    simp [hop]

/-! ### The unrecognised words -/

theorem decodeGroup8_error_iff (w : Word) :
    (∃ e, decodeGroup8 w = .error e) ↔ (nField w).toNat ∈ [8, 9, 10, 11, 12, 13, 15] := by
  fun_cases decodeGroup8 w
  case case10 =>
    have hkey : (nField w).toNat ∈ [8, 9, 10, 11, 12, 13, 15] := by
      simp only [List.mem_cons, List.not_mem_nil, or_false]
      bv_omega
    exact iff_of_true ⟨_, rfl⟩ hkey
  all_goals simp [*]

theorem decodeGroupE_error_iff (w : Word) :
    (∃ e, decodeGroupE w = .error e) ↔ (kkField w).toNat ∉ [0x9E, 0xA1] := by
  fun_cases decodeGroupE w
  case case3 =>
    have hkey : (kkField w).toNat ∉ [0x9E, 0xA1] := by
      simp only [List.mem_cons, List.not_mem_nil, or_false]
      bv_omega
    exact iff_of_true ⟨_, rfl⟩ hkey
  all_goals simp [*]

theorem decodeGroupF_error_iff (w : Word) :
    (∃ e, decodeGroupF w = .error e) ↔
      (kkField w).toNat ∉ [0x07, 0x0A, 0x15, 0x18, 0x1E, 0x29, 0x33, 0x55, 0x65] := by
  fun_cases decodeGroupF w
  case case10 =>
    have hkey : (kkField w).toNat ∉ [0x07, 0x0A, 0x15, 0x18, 0x1E, 0x29, 0x33, 0x55, 0x65] := by
      simp only [List.mem_cons, List.not_mem_nil, or_false]
      bv_omega
    exact iff_of_true ⟨_, rfl⟩ hkey
  all_goals simp [*]

theorem opField_toNat (w : Word) : (opField w).toNat = w.toNat / 4096 := by
  rw [opField, BitVec.extractLsb'_toNat, Nat.shiftRight_eq_div_pow]
  omega

theorem nField_toNat (w : Word) : (nField w).toNat = w.toNat % 16 := by
  rw [nField, BitVec.extractLsb'_toNat, Nat.shiftRight_zero]

theorem kkField_toNat (w : Word) : (kkField w).toNat = w.toNat % 256 := by
  rw [kkField, BitVec.extractLsb'_toNat, Nat.shiftRight_zero]

/-- Settles O45, by the primary key: only the groups 8, E and F have keys of no instruction. -/
theorem unrecognisedWordsAreExactlyThese : Obligations.UnrecognisedWordsAreExactlyThese := by
  intro w
  rw [← opField_toNat, ← nField_toNat, ← kkField_toNat, ← decodeGroup8_error_iff, ← decodeGroupE_error_iff,
    ← decodeGroupF_error_iff]
  fun_cases decode w
  case case16 =>
    have hop : opField w = 0xF#4 := by bv_omega
    simp [hop]
  all_goals
    rename_i hop
    simp [hop]

/-! ### Ignored fields -/

/-- Words that are equal but for the ignored fields the syntax drops are the same instruction. -/
theorem eq_of_clearIgnored_eq {w w' : Word} {i i' : Instr} (h : decode w = .ok i) (h' : decode w' = .ok i')
    (heq : clearIgnored w = clearIgnored w') : i = i' := by
  obtain ⟨hwf, henc⟩ := encode_of_decode h
  obtain ⟨hwf', henc'⟩ := encode_of_decode h'
  have hsame : encode i = encode i' := by rw [henc, henc', heq]
  have hdec : (.ok i : Except DecodeReject Instr) = .ok i' := by
    rw [← decodeOfEncode i hwf, ← decodeOfEncode i' hwf', hsame]
  exact Except.ok.inj hdec

/-- SHR does not read `y` (D5). -/
theorem exec_shrVx_ignores_y (x y y' : Reg) (s : State) : exec (.shrVx x y) s = exec (.shrVx x y') s := rfl

/-- SHL does not read `y` (D5). -/
theorem exec_shlVx_ignores_y (x y y' : Reg) (s : State) : exec (.shlVx x y) s = exec (.shlVx x y') s := rfl

theorem decode_of_8xy6 {w : Word} (h : w &&& 0xF00F#16 = 0x8006#16) : decode w = .ok (.shrVx (xField w) (yField w)) := by
  rw [and_mask_F00F_eq_iff w rfl] at h
  simp [decode, decodeGroup8, h]

theorem decode_of_8xyE {w : Word} (h : w &&& 0xF00F#16 = 0x800E#16) : decode w = .ok (.shlVx (xField w) (yField w)) := by
  rw [and_mask_F00F_eq_iff w rfl] at h
  simp [decode, decodeGroup8, h]

/-- Words that agree under a mask agree under every mask it covers. -/
theorem and_eq_of_and_mask_eq {w w' m m' : Word} (h : w &&& m = w' &&& m) (hcover : m &&& m' = m') :
    w &&& m' = w' &&& m' := by
  rw [← hcover, ← BitVec.and_assoc, ← BitVec.and_assoc, h]

/-- Settles O46: CLS, RET and the words of groups 5 and 9 are the same instruction, SHR and SHL do not read `y`, and SYS does
not read its operand. -/
theorem ignoredFieldsHaveNoEffect : Obligations.IgnoredFieldsHaveNoEffect := by
  intro w w' i i' s h h' hcase
  rcases hcase with ⟨hmask, hkey⟩ | ⟨hmask, hkey⟩ | ⟨hmask, hkey⟩ | ⟨⟨a, rfl⟩, a', rfl⟩
  · have hclear : clearIgnored w = clearIgnored w' := by
      rw [clearIgnored_of_key rfl hkey, clearIgnored_of_key hmask.symm hkey]
    rw [eq_of_clearIgnored_eq h h' hclear]
  · have hop : opField w = opField w' := by
      rw [and_mask_FFF0, and_mask_FFF0] at hmask
      simpa using congrArg opField hmask
    have hkey' : opField w' = 5#4 ∨ opField w' = 9#4 := by
      simpa [and_mask_F000_eq_iff, hop] using hkey
    have hclear : clearIgnored w = clearIgnored w' := by
      rw [clearIgnored_of_op_5_9 hop hkey', clearIgnored_of_op_5_9 rfl hkey', ← and_mask_FFF0 w', ← hmask, and_mask_FFF0, hop]
    rw [eq_of_clearIgnored_eq h h' hclear]
  · have hkey' : w' &&& 0xF00F#16 = w &&& 0xF00F#16 := (and_eq_of_and_mask_eq hmask rfl).symm
    have hx : xField w = xField w' := by
      rw [and_mask_FF0F, and_mask_FF0F] at hmask
      simpa using congrArg xField hmask
    rcases hkey with hkey | hkey
    · cases h.symm.trans (decode_of_8xy6 hkey)
      cases h'.symm.trans (decode_of_8xy6 (hkey'.trans hkey))
      rw [hx]
      exact exec_shrVx_ignores_y ..
    · cases h.symm.trans (decode_of_8xyE hkey)
      cases h'.symm.trans (decode_of_8xyE (hkey'.trans hkey))
      rw [hx]
      exact exec_shlVx_ignores_y ..
  · rfl

/-! ### Listings -/

/-- The lines before the rest of a listing that are instructions emit their words in order. -/
theorem assembleLines_ops_append {listing rest : List AsmLine} {bs : List Byte} (h : assembleLines listing rest = some bs)
    (is : List Instr) : assembleLines listing (is.map .op ++ rest) = some (is.flatMap encodeBytes ++ bs) := by
  induction is with
  | nil => exact h
  | cons i is ih => simp [assembleLines, AsmLine.bytes, ih]

theorem assembleLines_ops (listing : List AsmLine) (is : List Instr) :
    assembleLines listing (is.map .op) = some (is.flatMap encodeBytes) := by
  simpa using assembleLines_ops_append (listing := listing) (rest := []) rfl is

/-- Settles O48, by the lines before the DW and the lines after it. -/
theorem listingAssemblesInOrder : Obligations.ListingAssemblesInOrder := by
  intro pre v post
  apply assembleLines_ops_append
  simp [assembleLines, AsmLine.bytes, assembleLines_ops]

/-- Settles O47: each word's keys and fields are computed. -/
theorem sampleWordsDecode : Obligations.SampleWordsDecode := ⟨rfl, rfl, rfl, rfl, rfl, rfl, rfl⟩

end Sys2Proof
end

section
/-! SUPPORT. The family of 40_control.md: what the jumps, CALL, RET and the skips do (R121 to R129), and the next pc of every
instruction (R130). When an instruction takes which fault (60_exceptions.md table X) is said once, in `exec_fault_cause`. -/

namespace Sys2Proof.Machine

/-! ### SYS and the jumps -/

/-- A halted core reports nothing. -/
theorem stepEvent_none_of_halted {s : State} {f : Fault} (h : s.fault = some f) : s.stepEvent = none := by
  simp [State.stepEvent, h]

/-- Settles O6: SYS is `advance`, and its word is an instruction's. -/
theorem sysIsNoOp : Obligations.SysIsNoOp := by
  intro nnn s
  refine ⟨rfl, fun w hf hd => ?_⟩
  cases hs : s.fault with
  | some f => exact stepEvent_none_of_halted hs
  | none => exact stepEvent_ok s hs w _ hf hd

/-- A 12-bit address keeps its value as a pc (30_encoding.md R93). -/
theorem zextAddr_toNat (nnn : BitVec 12) : (zextAddr nnn).toNat = nnn.toNat := by
  simp only [zextAddr, BitVec.toNat_setWidth]
  omega

/-- The target of JP V0 does not wrap (40_control.md R129). -/
theorem zextAddr_add_zextByte_toNat (nnn : BitVec 12) (b : Byte) :
    (zextAddr nnn + zextByte b).toNat = nnn.toNat + b.toNat := by
  simp only [zextAddr, zextByte, BitVec.toNat_add, BitVec.toNat_setWidth]
  omega

/-- Settles O7: the values of the two targets. -/
theorem jumpsSetPcToTarget : Obligations.JumpsSetPcToTarget := fun nnn s =>
  ⟨⟨_, zextAddr_toNat nnn, rfl⟩, ⟨_, zextAddr_add_zextByte_toNat nnn (s.readV 0), rfl⟩⟩

/-! ### CALL and RET -/

/-- CALL with room on the call stack. -/
theorem exec_call_of_lt (nnn : BitVec 12) {s : State} (h : s.sp.val < 16) :
    exec (.call nnn) s = .next { s with
      stack := s.stack.set s.sp.val (s.pc + 2), sp := ⟨s.sp.val + 1, by omega⟩, pc := zextAddr nnn } := by
  simp only [exec, execCall, s.push_eq _ h]
  rfl

/-- CALL on a full call stack. -/
theorem exec_call_of_full (nnn : BitVec 12) {s : State} (h : s.sp.val = 16) :
    exec (.call nnn) s = .next { s with fault := some .stackOverflow } := by
  simp only [exec, execCall, s.push_full _ h]
  rfl

/-- Settles O8, by whether the call stack has room. -/
theorem callPushesReturnAddress : Obligations.CallPushesReturnAddress := by
  refine fun nnn s => ⟨fun h => ⟨_, exec_call_of_lt nnn h, rfl, rfl, zextAddr_toNat nnn, fun k => ?_⟩, exec_call_of_full nnn⟩
  simp only [Vector.getElem_set, eq_comm]

/-- Settles O9, by whether an entry is live. -/
theorem retPopsReturnAddress : Obligations.RetPopsReturnAddress := by
  refine fun s => ⟨fun k h => ?_, fun h => ?_⟩
  · have htop : s.sp.val - 1 = k.val := by omega
    refine ⟨{ s with sp := ⟨k.val, by omega⟩, pc := s.stack[k.val] }, ?_, rfl, rfl⟩
    simp only [exec, execRet, s.pop_eq (by omega), htop]
    rfl
  · simp only [exec, execRet, s.pop_empty h]
    rfl

/-- Settles O10: what O8 says CALL pushes is what O9 says RET pops. -/
theorem callThenRetComesBack : Obligations.CallThenRetComesBack := by
  intro nnn s t u hsp hcall hstack hdepth
  obtain ⟨t', hcall', -, hdepth', -, hpushed⟩ := (callPushesReturnAddress nnn s).1 hsp
  cases hcall.symm.trans hcall'
  obtain ⟨r, hret, hr, hrsp⟩ := (retPopsReturnAddress u).1 ⟨s.sp.val, hsp⟩ (hdepth ▸ hdepth')
  have hpc : r.pc = s.pc + 2 := by
    rw [hr, hstack]
    exact (hpushed ⟨s.sp.val, hsp⟩).trans (if_pos rfl)
  refine ⟨r, hret, hpc, Fin.ext hrsp, ?_⟩
  rw [hr]

/-! ### Skips -/

theorem State.skipIf_of_true (s : State) {taken : Bool} (h : taken = true) :
    s.skipIf taken = { s with pc := s.pc + 4 } := by
  rw [h]; rfl

theorem State.skipIf_of_false (s : State) {taken : Bool} (h : taken = false) :
    s.skipIf taken = { s with pc := s.pc + 2 } := by
  rw [h]; rfl

/-- The skip of SE (40_control.md R125, R127). -/
theorem State.skipIf_beq (s : State) (a b : Byte) :
    (a = b → s.skipIf (a == b) = { s with pc := s.pc + 4 }) ∧
    (a ≠ b → s.skipIf (a == b) = { s with pc := s.pc + 2 }) :=
  ⟨fun h => s.skipIf_of_true (beq_iff_eq.mpr h), fun h => s.skipIf_of_false (beq_eq_false_iff_ne.mpr h)⟩

/-- The skip of SNE (40_control.md R126, R128). -/
theorem State.skipIf_bne (s : State) (a b : Byte) :
    (a = b → s.skipIf (a != b) = { s with pc := s.pc + 2 }) ∧
    (a ≠ b → s.skipIf (a != b) = { s with pc := s.pc + 4 }) :=
  ⟨fun h => s.skipIf_of_false (bne_eq_false_iff_eq.mpr h), fun h => s.skipIf_of_true (bne_iff_ne.mpr h)⟩

/-- Settles O11: the two skips on a register and a byte. -/
theorem immediateSkips : Obligations.ImmediateSkips := by
  intro x kk s
  obtain ⟨seEq, seNe⟩ := s.skipIf_beq (s.readV x) kk
  obtain ⟨sneEq, sneNe⟩ := s.skipIf_bne (s.readV x) kk
  exact ⟨fun h => ⟨congrArg _ (seEq h), congrArg _ (sneEq h)⟩, fun h => ⟨congrArg _ (seNe h), congrArg _ (sneNe h)⟩⟩

/-- Settles O12: the two skips on two registers. -/
theorem registerSkips : Obligations.RegisterSkips := by
  intro x y s
  obtain ⟨seEq, seNe⟩ := s.skipIf_beq (s.readV x) (s.readV y)
  obtain ⟨sneEq, sneNe⟩ := s.skipIf_bne (s.readV x) (s.readV y)
  exact ⟨fun h => ⟨congrArg _ (seEq h), congrArg _ (sneEq h)⟩, fun h => ⟨congrArg _ (seNe h), congrArg _ (sneNe h)⟩⟩

/-! ### The next pc of every instruction -/

/-- The selected key is the one numbered by the low nibble (44_keypad_timers.md R200). -/
theorem eq_selectedKey {k : Key} {b : Byte} (h : k.val = b.toNat % 16) : k = selectedKey b := Fin.ext h

/-- An instruction that completes goes where R130 says: the ones with more than one outcome by their outcomes, the skips by
their condition, the jumps to their target, and the others to the next instruction. -/
theorem exec_nextPcIs {i : Instr} {s t : State} (h : exec i s = .next t) (ht : t.fault = none) : nextPcIs s t.pc i := by
  cases i
  case ret =>
    rcases exec_ret_cases h with rfl | ⟨hsp, rfl⟩
    · cases ht
    · exact ⟨⟨s.sp.val - 1, by omega⟩, Nat.sub_add_cancel hsp, rfl⟩
  case call nnn =>
    rcases exec_call_cases h with rfl | ⟨_, rfl⟩
    · cases ht
    · exact zextAddr_toNat nnn
  case jp nnn => cases h; exact zextAddr_toNat nnn
  case jpV0Nnn nnn => cases h; exact zextAddr_add_zextByte_toNat nnn _
  case seVxKk | seVxVy =>
    cases h
    obtain ⟨heq, hne⟩ := s.skipIf_beq (s.readV _) _
    exact ⟨fun e => congrArg State.pc (heq e), fun e => congrArg State.pc (hne e)⟩
  case sneVxKk | sneVxVy =>
    cases h
    obtain ⟨heq, hne⟩ := s.skipIf_bne (s.readV _) _
    exact ⟨fun e => congrArg State.pc (hne e), fun e => congrArg State.pc (heq e)⟩
  case skpVx x =>
    cases h
    intro k hk
    rw [eq_selectedKey hk]
    exact ⟨fun hdown => congrArg State.pc (s.skipIf_of_true hdown), fun hup => congrArg State.pc (s.skipIf_of_false hup)⟩
  case sknpVx x =>
    cases h
    intro k hk
    rw [eq_selectedKey hk]
    exact ⟨fun hup => congrArg State.pc (s.skipIf_of_true (by rw [hup]; rfl)),
      fun hdown => congrArg State.pc (s.skipIf_of_false (by rw [hdown]; rfl))⟩
  case ldVxK x =>
    rcases exec_ldVxK_cases h with ⟨k, hk, rfl⟩ | ⟨hnone, rfl⟩
    · obtain ⟨_, hdown, -⟩ := lowestDown_some s k hk
      exact ⟨fun _ => rfl, fun hup => absurd hdown (by simp [hup])⟩
    · have hup := (lowestDown_none s).mp hnone
      exact ⟨fun ⟨k, hdown⟩ => absurd hdown (by simp [hup]), fun _ => rfl⟩
  case ldBVx x =>
    rcases exec_ldBVx_cases h with rfl | ⟨_, rfl⟩
    · cases ht
    · rfl
  case ldIndVx x =>
    rcases exec_ldIndVx_cases h with rfl | ⟨_, rfl⟩
    · cases ht
    · rfl
  case ldVxInd x =>
    rcases exec_ldVxInd_cases h with rfl | ⟨_, _, rfl⟩
    · cases ht
    · rfl
  case drw x y n =>
    rcases exec_drw_cases h with rfl | ⟨_, _, _, _, rfl⟩
    · cases ht
    · rfl
  all_goals
    cases h
    rfl

/-- Settles O13: a fault leaves everything but the fault register, and an instruction without one completes. -/
theorem nextPcOfEveryInstruction : Obligations.NextPcOfEveryInstruction := by
  intro i s t hs h
  refine ⟨exec_nextPcIs h, fun ht => ?_⟩
  obtain ⟨t', h', hsame | ⟨f, rfl⟩⟩ := exec_answers i s
  · cases h.symm.trans h'
    exact absurd (hsame.trans hs) ht
  · cases h.symm.trans h'
    rfl

/-! ### When an instruction faults -/

/-- A load that does not happen would read beyond memory. -/
theorem State.load_none {s : State} {a count : Nat} (h : s.load a count = none) : 0 < count ∧ 4096 ≤ a + count - 1 := by
  rw [State.load_eq] at h
  split at h
  · cases h
  · omega

/-- A store that does not happen would write beyond memory. -/
theorem State.store_none {s : State} {a : Nat} {bs : List Byte} (h : s.store a bs = none) :
    4096 ≤ a + bs.length - 1 := by
  rw [State.store_eq] at h
  split at h
  · cases h
  · omega

/-- A push that does not happen finds the call stack full. -/
theorem State.push_none {s : State} {ret : Word} (h : s.push ret = none) : s.sp.val = 16 := by
  by_contra hsp
  rw [s.push_eq ret (by omega)] at h
  cases h

/-- A pop that does not happen finds the call stack empty. -/
theorem State.pop_none {s : State} (h : s.pop = none) : s.sp.val = 0 := by
  by_contra hsp
  rw [s.pop_eq (by omega)] at h
  cases h

/-- The condition of table X under which instruction `i` takes the fault (60_exceptions.md R251 to R253). -/
def FaultCause (s : State) (i : Instr) : Fault → Prop
  | .stackOverflow => (∃ nnn, i = .call nnn) ∧ s.sp.val = 16
  | .stackUnderflow => i = .ret ∧ s.sp.val = 0
  | .memOutOfRange => rangeFault s i

/-- An instruction takes a fault only under that fault's condition. -/
theorem exec_fault_cause {i : Instr} {s t : State} {f : Fault} (hs : s.fault = none) (h : exec i s = .next t)
    (ht : t.fault = some f) : FaultCause s i f := by
  cases i
  case ret =>
    simp only [exec, execRet] at h
    split at h
    · rename_i hpop
      cases h; cases ht; exact ⟨rfl, State.pop_none hpop⟩
    · rename_i ret u hpop
      obtain ⟨_, -, rfl⟩ := State.pop_some hpop
      cases h; cases hs.symm.trans ht
  case call nnn =>
    simp only [exec, execCall] at h
    split at h
    · rename_i hpush
      cases h; cases ht; exact ⟨⟨nnn, rfl⟩, State.push_none hpush⟩
    · rename_i u hpush
      obtain ⟨_, rfl⟩ := State.push_some hpush
      cases h; cases hs.symm.trans ht
  case ldBVx x =>
    simp only [exec, execLdBVx] at h
    split at h
    · rename_i hstore
      cases h; cases ht; exact State.store_none hstore
    · rename_i u hstore
      obtain ⟨-, rfl⟩ := State.store_some hstore
      cases h; cases hs.symm.trans ht
  case ldIndVx x =>
    simp only [exec, execLdIndVx] at h
    split at h
    · rename_i hstore
      have hout := State.store_none hstore
      rw [State.dumpBytes_length] at hout
      cases h; cases ht; exact hout
    · rename_i u hstore
      obtain ⟨-, rfl⟩ := State.store_some hstore
      cases h; cases hs.symm.trans ht
  case ldVxInd x =>
    simp only [exec, execLdVxInd] at h
    split at h
    · rename_i hload
      cases h; cases ht; exact (State.load_none hload).2
    · cases h; cases hs.symm.trans ht
  case drw x y n =>
    simp only [exec, execDrw] at h
    split at h
    · rename_i hload
      cases h; cases ht; exact State.load_none hload
    · cases h; cases hs.symm.trans ht
  case ldVxK x =>
    rcases exec_ldVxK_cases h with ⟨_, _, rfl⟩ | ⟨_, rfl⟩ <;> cases hs.symm.trans ht
  -- the rest have one outcome, which keeps the fault register
  all_goals
    cases h
    cases hs.symm.trans ht

/-- Settles O59: every instruction answers, none of the conditions of table X holds, and what completes goes where R130 says. -/
theorem everyInstructionCompletesOutsideTableX : Obligations.EveryInstructionCompletesOutsideTableX := by
  intro i s hs hrange hret hcall
  obtain ⟨t, h, -⟩ := exec_answers i s
  have ht : t.fault = none := by
    by_contra hne
    obtain ⟨f, hf⟩ := Option.ne_none_iff_exists'.mp hne
    have hcause := exec_fault_cause hs h hf
    cases f with
    | stackOverflow =>
      obtain ⟨⟨nnn, hi⟩, hfull⟩ := hcause
      exact absurd hfull (hcall nnn hi).ne
    | stackUnderflow =>
      obtain ⟨hi, hempty⟩ := hcause
      exact absurd hempty (hret hi).ne'
    | memOutOfRange => exact hrange hcause
  exact ⟨t, h, ht, exec_nextPcIs h ht⟩

end Sys2Proof.Machine
end

section
/-! SUPPORT. The family of 41_load_alu.md: what the loads, the arithmetic, the logic, the shifts and RND write (R141 to
R152). What the flag-setting instructions share, the order of their writes (R140), is said once, in
`exec_of_writeResultAndFlag`. -/

namespace Sys2Proof.Machine

/-! ### One destination and no flag -/

/-- The destination reads as what was written to it. -/
@[simp] theorem State.readV_writeV_self (s : State) (x : Reg) (b : Byte) : (s.writeV x b).readV x = b := by
  rw [State.readV_writeV, if_pos rfl]

/-- Settles O14: both are one write to Vx and `advance`. -/
theorem registerLoads : Obligations.RegisterLoads := fun x y kk s =>
  ⟨⟨(s.writeV x kk).advance, rfl, rfl, fun r => s.readV_writeV x r kk⟩,
    (s.writeV x (s.readV y)).advance, rfl, rfl, fun r => s.readV_writeV x r (s.readV y)⟩

/-- Settles O15: the sum of two bytes is the one mod 256, and it is the only register written. -/
theorem addImmediateWraps : Obligations.AddImmediateWraps := by
  intro x kk s
  refine ⟨(s.writeV x (s.readV x + kk)).advance, rfl, rfl, ?_, fun r hr => ?_⟩
  · rw [State.readV_advance, State.readV_writeV_self, BitVec.toNat_add]
  · exact s.readV_writeV_of_ne _ (beq_false_of_ne hr)

/-- An instruction that writes `val` to Vx and goes on leaves the bits of `val` there and every other register as it was. -/
theorem exec_of_writeV {i : Instr} {s : State} {x : Reg} {val : Byte} {bit : Nat → Bool}
    (h : exec i s = .next (s.writeV x val).advance) (hbit : ∀ b, val.getLsbD b = bit b) :
    ∃ t, exec i s = .next t ∧ t = { s with v := t.v, pc := s.pc + 2 } ∧
      (∀ b < 8, (t.readV x).getLsbD b = bit b) ∧ ∀ r, r ≠ x → t.readV r = s.readV r := by
  refine ⟨_, h, rfl, fun b _ => ?_, fun r hr => ?_⟩
  · rw [State.readV_advance, State.readV_writeV_self, hbit]
  · exact s.readV_writeV_of_ne _ (beq_false_of_ne hr)

/-- Settles O16: the bits of each of the three results. -/
theorem logicIsBitwise : Obligations.LogicIsBitwise := fun _ _ _ =>
  ⟨exec_of_writeV rfl fun _ => BitVec.getLsbD_or, exec_of_writeV rfl fun _ => BitVec.getLsbD_and,
    exec_of_writeV rfl fun _ => BitVec.getLsbD_xor⟩

/-- Settles O21: the value written is the draw masked, and the draw number is the only other thing that moves. -/
theorem rndMasksTheDraw : Obligations.RndMasksTheDraw := by
  intro x kk s
  refine ⟨(s.writeV x (s.draw &&& kk)).afterDraw.advance, rfl, rfl, fun b _ => ?_, fun r hr => ?_⟩
  · rw [State.readV_advance, State.readV_afterDraw, State.readV_writeV_self, BitVec.getLsbD_and, State.draw]
  · exact s.readV_writeV_of_ne _ (beq_false_of_ne hr)

/-! ### The flags as numbers -/

theorem flagByte_toNat (b : Bool) : (flagByte b).toNat = b.toNat := by
  cases b <;> rfl

theorem flagByte_carryFlag_toNat (a b : Byte) :
    (flagByte (carryFlag a b)).toNat = if a.toNat + b.toNat > 255 then 1 else 0 := by
  rw [flagByte_toNat, carryFlag, Bool.toNat, Bool.cond_decide]

theorem flagByte_noBorrowFlag_toNat (a b : Byte) :
    (flagByte (noBorrowFlag a b)).toNat = if a.toNat ≥ b.toNat then 1 else 0 := by
  rw [flagByte_toNat, noBorrowFlag, Bool.toNat, Bool.cond_decide]

theorem flagByte_shiftedOutRight_toNat (a : Byte) : (flagByte (shiftedOutRight a)).toNat = a.toNat % 2 := by
  rw [flagByte_toNat, shiftedOutRight, BitVec.getLsbD, Nat.toNat_testBit, Nat.pow_zero, Nat.div_one]

theorem flagByte_shiftedOutLeft_toNat (a : Byte) : (flagByte (shiftedOutLeft a)).toNat = a.toNat / 128 := by
  rw [flagByte_toNat, shiftedOutLeft, BitVec.getLsbD, Nat.toNat_testBit]
  omega

/-! ### The results as numbers -/

theorem byte_sub_toNat (a b : Byte) : (a - b).toNat = (a.toNat + 256 - b.toNat) % 256 := by
  rw [BitVec.toNat_sub]
  omega

theorem byte_shiftRight_one_toNat (a : Byte) : (a >>> 1).toNat = a.toNat / 2 := by
  rw [BitVec.toNat_ushiftRight, Nat.shiftRight_eq_div_pow, Nat.pow_one]

theorem byte_shiftLeft_one_toNat (a : Byte) : (a <<< 1).toNat = 2 * a.toNat % 256 := by
  rw [BitVec.toNat_shiftLeft, Nat.shiftLeft_eq, Nat.pow_one, Nat.mul_comm]

/-! ### A destination and then the flag -/

/-- An instruction that writes `val` to Vx, then `flag` to VF, and goes on (41_load_alu.md R140): VF holds the flag for every
`x`, and Vx the value where it is not VF. -/
theorem exec_of_writeResultAndFlag {i : Instr} {s : State} {x : Reg} {val : Byte} {flag : Bool} {valNat flagNat : Nat}
    (h : exec i s = .next (s.writeResultAndFlag x val flag).advance) (hflag : (flagByte flag).toNat = flagNat)
    (hval : val.toNat = valNat) :
    ∃ t, exec i s = .next t ∧ t = { s with v := t.v, pc := s.pc + 2 } ∧
      (t.readV vf).toNat = flagNat ∧ (x ≠ vf → (t.readV x).toNat = valNat) ∧
      ∀ r, r ≠ x → r ≠ vf → t.readV r = s.readV r := by
  refine ⟨_, h, rfl, ?_, fun hx => ?_, fun r hrx hrf => ?_⟩
  · rw [State.readV_advance, State.readV_vf_writeResultAndFlag, hflag]
  · rw [State.readV_advance, State.readV_writeResultAndFlag, if_neg hx, if_pos rfl, hval]
  · rw [State.readV_advance, State.readV_writeResultAndFlag, if_neg hrf, if_neg hrx]

/-- Settles O17: the carry as a number, and the sum. -/
theorem addWritesCarryLast : Obligations.AddWritesCarryLast := fun _ _ _ =>
  exec_of_writeResultAndFlag rfl (flagByte_carryFlag_toNat _ _) (BitVec.toNat_add _ _)

/-- Settles O18: no borrow as a number, and the difference, with Vx and then Vy as minuend. -/
theorem subtractsWriteNoBorrowLast : Obligations.SubtractsWriteNoBorrowLast := fun _ _ _ =>
  ⟨exec_of_writeResultAndFlag rfl (flagByte_noBorrowFlag_toNat _ _) (byte_sub_toNat _ _),
    exec_of_writeResultAndFlag rfl (flagByte_noBorrowFlag_toNat _ _) (byte_sub_toNat _ _)⟩

/-- Settles O19: the bit shifted out as a number, and the shifted byte; the operand is Vx (D5). -/
theorem shiftsWriteShiftedOutBitLast : Obligations.ShiftsWriteShiftedOutBitLast := fun _ _ _ =>
  ⟨exec_of_writeResultAndFlag rfl (flagByte_shiftedOutRight_toNat _) (byte_shiftRight_one_toNat _),
    exec_of_writeResultAndFlag rfl (flagByte_shiftedOutLeft_toNat _) (byte_shiftLeft_one_toNat _)⟩

/-- Settles O20: Vy comes through the ADD unchanged, so the SUB takes off what the ADD put on; the other registers come
through both. -/
theorem addThenSubGivesVxBack : Obligations.AddThenSubGivesVxBack := by
  intro x y s hxy hx hy
  obtain ⟨t, hadd, -, -, hsum, hkeptByAdd⟩ := addWritesCarryLast x y s
  obtain ⟨⟨u, hsub, -, -, hdiff, hkeptBySub⟩, -⟩ := subtractsWriteNoBorrowLast x y t
  refine ⟨t, u, hadd, hsub, fun r hr => ?_⟩
  by_cases hrx : r = x
  · subst hrx
    apply BitVec.eq_of_toNat_eq
    rw [hdiff hx, hsum hx, hkeptByAdd y hxy.symm hy]
    omega
  · exact (hkeptBySub r hrx hr).trans (hkeptByAdd r hrx hr)

end Sys2Proof.Machine
end

section
/-! SUPPORT. The family of 42_index_memory.md: the writes of I (R170 to R172) and the three instructions that move bytes
between registers and memory from I on (R173 to R176). Each of the three has one lemma for a range in memory and one for a
range that leaves it. -/

namespace Sys2Proof.Machine

/-! ### The writes of I -/

/-- The sum of ADD I, Vx is the one mod 65536: it is not masked to 12 bits (42_index_memory.md R171). -/
theorem add_zextByte_toNat (w : Word) (b : Byte) : (w + zextByte b).toNat = (w.toNat + b.toNat) % 65536 := by
  simp only [zextByte, BitVec.toNat_add, BitVec.toNat_setWidth]
  omega

/-- The glyphs lie five bytes apart from address 0 on, and the low nibble selects one (42_index_memory.md R172). -/
theorem glyphAddress_toNat (b : Byte) : (glyphAddress b).toNat = 5 * (b.toNat % 16) := by
  have hnibble : (b &&& 0x0F#8).toNat = b.toNat % 16 := Nat.and_two_pow_sub_one_eq_mod b.toNat 4
  rw [glyphAddress, hnibble, BitVec.toNat_ofNat, Config.fontBase, Config.glyphBytes]
  omega

/-- Settles O22: the values of the three results. -/
theorem indexRegisterWrites : Obligations.IndexRegisterWrites := fun x nnn s =>
  ⟨⟨_, zextAddr_toNat nnn, rfl⟩, ⟨_, add_zextByte_toNat s.i (s.readV x), rfl⟩, _, glyphAddress_toNat (s.readV x), rfl⟩

/-! ### Stores from I on -/

@[simp] theorem bcdDigits_length (b : Byte) : (bcdDigits b).length = 3 := rfl

/-- A store whose last address lies beyond memory does not happen. -/
theorem State.store_of_outside (s : State) {a n : Nat} {bs : List Byte} (hlen : bs.length = n + 1) (h : 4096 ≤ a + n) :
    s.store a bs = none := by
  rw [State.store_eq, if_neg (by omega)]

/-- A digit store whose range lies in memory stores the three digits and goes on (42_index_memory.md R173). -/
theorem exec_ldBVx_inside {x : Reg} {s : State} (h : s.indexAddress + 2 < 4096) :
    exec (.ldBVx x) s =
      .next { s with mem := Memory.putAll s.mem s.indexAddress (bcdDigits (s.readV x)), pc := s.pc + 2 } := by
  have hstore := s.store_eq s.indexAddress (bcdDigits (s.readV x))
  rw [if_pos (.inr h)] at hstore
  simp only [exec, execLdBVx, hstore]
  rfl

/-- A digit store whose range leaves memory faults (42_index_memory.md R173). -/
theorem exec_ldBVx_outside {x : Reg} {s : State} (h : 4096 ≤ s.indexAddress + 2) :
    exec (.ldBVx x) s = .next { s with fault := some .memOutOfRange } := by
  simp only [exec, execLdBVx, s.store_of_outside (bcdDigits_length (s.readV x)) h]
  rfl

/-- A register dump whose range leaves memory faults (42_index_memory.md R174). -/
theorem exec_ldIndVx_outside {x : Reg} {s : State} (h : 4096 ≤ s.indexAddress + x.val) :
    exec (.ldIndVx x) s = .next { s with fault := some .memOutOfRange } := by
  simp only [exec, execLdIndVx, s.store_of_outside (s.dumpBytes_length x) h]
  rfl

/-- The three digits of a byte as numbers: none is too large for its cell (42_index_memory.md R173). -/
theorem bcdDigits_getElem_toNat (b : Byte) :
    (bcdDigits b)[0].toNat = b.toNat / 100 ∧ (bcdDigits b)[1].toNat = b.toNat / 10 % 10 ∧
      (bcdDigits b)[2].toNat = b.toNat % 10 := by
  simp only [bcdDigits, List.getElem_cons_zero, List.getElem_cons_succ, BitVec.toNat_ofNat]
  omega

/-- Settles O23, by whether the range lies in memory; each of the three cells holds the digit of its place. -/
theorem bcdStoresThreeDigits : Obligations.BcdStoresThreeDigits := by
  refine fun x s => ⟨fun hin => ?_, exec_ldBVx_outside⟩
  have hstored (j : Nat) (hj : j < 3) := Memory.get_putAll_inside s.mem s.indexAddress j (bcdDigits (s.readV x)) hj
  obtain ⟨hundreds, tens, ones⟩ := bcdDigits_getElem_toNat (s.readV x)
  refine ⟨_, exec_ldBVx_inside hin, rfl, ?_, ?_, ?_, fun a ha => Memory.get_putAll_outside _ _ _ _ ha⟩
  · exact (congrArg _ (hstored 0 (by decide))).trans hundreds
  · exact (congrArg _ (hstored 1 (by decide))).trans tens
  · exact (congrArg _ (hstored 2 (by decide))).trans ones

/-- Settles O24, by whether the range lies in memory. -/
theorem registerDumpStoresV0ToVx : Obligations.RegisterDumpStoresV0ToVx := by
  refine fun x s => ⟨fun hin => ?_, exec_ldIndVx_outside⟩
  have hexec := exec_ldIndVx_inside hin
  refine ⟨_, hexec, rfl, fun k hk => byteAt_of_exec_ldIndVx hin hk hexec, fun a ha => ?_⟩
  exact Memory.get_putAll_outside _ _ _ _ (by rw [State.dumpBytes_length]; exact ha)

/-! ### Loads from I on -/

/-- A register load whose range lies in memory fills V0..Vx and goes on (42_index_memory.md R175, R176). -/
theorem exec_ldVxInd_inside {x : Reg} {s : State} (h : s.indexAddress + x.val < 4096) :
    exec (.ldVxInd x) s =
      .next { s with v := fillV s.v 0 (Memory.getAll s.mem s.indexAddress (registerCount x)), pc := s.pc + 2 } := by
  have hload := s.load_eq s.indexAddress (registerCount x)
  rw [if_pos (.inr h)] at hload
  simp only [exec, execLdVxInd, hload]
  rfl

/-- A register load whose range leaves memory faults (42_index_memory.md R175). -/
theorem exec_ldVxInd_outside {x : Reg} {s : State} (h : 4096 ≤ s.indexAddress + x.val) :
    exec (.ldVxInd x) s = .next { s with fault := some .memOutOfRange } := by
  have hload := s.load_eq s.indexAddress (registerCount x)
  rw [if_neg (by rw [registerCount]; omega)] at hload
  simp only [exec, execLdVxInd, hload]
  rfl

/-- A register filled from memory holds the byte of its place, and one above the count is as before. -/
theorem fillV_getAll_getElem (v : Vector Byte 16) (m : List Host.Cell) (a n : Nat) (k : Reg) :
    (fillV v 0 (Memory.getAll m a n))[k.val] = if k.val < n then Memory.get m (a + k.val) else v[k.val] := by
  by_cases hk : k.val < n
  · rw [fillV_getElem, dif_pos (by rw [Memory.getAll_length]; omega), Memory.getAll_getElem, if_pos hk, Nat.sub_zero]
  · rw [fillV_getElem_of_ge _ _ _ (by rw [Memory.getAll_length]; omega), if_neg hk]

/-- Settles O25, by whether the range lies in memory. -/
theorem registerLoadFillsV0ToVx : Obligations.RegisterLoadFillsV0ToVx := by
  refine fun x s => ⟨fun hin => ⟨_, exec_ldVxInd_inside hin, rfl, fun k => ?_⟩, exec_ldVxInd_outside⟩
  simp only [← Nat.lt_succ_iff]
  exact fillV_getAll_getElem s.v s.mem s.indexAddress (registerCount x) k

/-- Settles O26: the load reads at the I that the dump left unchanged (R176), so it reads the bytes that O24 says are there. -/
theorem dumpThenLoadRestores : Obligations.DumpThenLoadRestores := by
  intro x s t v' p hin hdump
  obtain ⟨t', hdump', hframe, hstored, -⟩ := (registerDumpStoresV0ToVx x s).1 hin
  cases hdump.symm.trans hdump'
  have hi : t.i = s.i := by rw [hframe]
  rw [← hi] at hin hstored
  obtain ⟨u, hload, -, hfilled⟩ := (registerLoadFillsV0ToVx x { t with v := v', pc := p }).1 hin
  exact ⟨u, hload, fun k hk => (hfilled k).trans ((if_pos hk).trans (hstored k hk))⟩

end Sys2Proof.Machine
end

section
/-! SUPPORT. The family of 43_display.md: CLS (R191) and DRW (R192, R193). What the sprite that DRW draws does to the screen is
said once, in `State.drawn_spec`; that a second draw restores the screen is a consequence of it. -/

namespace Sys2Proof.Machine

/-- Settles O31: the blank screen, read pixel by pixel. -/
theorem clsBlanksTheScreen : Obligations.ClsBlanksTheScreen := fun _ =>
  ⟨_, rfl, rfl, pixelOf_blankScreen⟩

/-! ### The sprite a DRW draws -/

/-- The screen and the collision after `DRW Vx, Vy, n` has drawn its sprite on `s` (43_display.md R192). -/
def State.drawn (s : State) (x y : Reg) (n : BitVec 4) : Canvas :=
  plotSprite (s.readV x).toNat (s.readV y).toNat (Memory.getAll s.mem s.indexAddress n.toNat)
    { fb := s.fb, collision := false }

/-- A DRW whose sprite lies in memory draws it, then writes VF, and goes on (43_display.md R192). -/
theorem exec_drw_inside {x y : Reg} {n : BitVec 4} {s : State} (h : n.toNat = 0 ∨ s.i.toNat + n.toNat - 1 < 4096) :
    exec (.drw x y n) s =
      .next (State.writeV { s with fb := (s.drawn x y n).fb, drawFlag := true } vf
        (flagByte (s.drawn x y n).collision)).advance := by
  have hload := s.load_eq s.indexAddress n.toNat
  rw [if_pos (by rw [State.indexAddress]; omega)] at hload
  simp only [exec, execDrw, hload]
  rfl

/-- A DRW with a sprite byte out of memory faults (43_display.md R192). -/
theorem exec_drw_outside {x y : Reg} {n : BitVec 4} {s : State} (h : 0 < n.toNat ∧ 4096 ≤ s.i.toNat + n.toNat - 1) :
    exec (.drw x y n) s = .next { s with fault := some .memOutOfRange } := by
  have hload := s.load_eq s.indexAddress n.toNat
  rw [if_neg (by rw [State.indexAddress]; omega)] at hload
  simp only [exec, execDrw, hload]
  rfl

/-- The bytes in memory from `a` on, as a sprite, hit the pixels that they cover. -/
theorem spriteHits_getAll_iff (s : State) (x0 y0 : Byte) (a n : Nat) (r : Fin 32) (c : Fin 64) :
    SpriteHits x0.toNat y0.toNat (Memory.getAll s.mem a n) r c ↔ s.spriteCovers x0 y0 a n r c := by
  simp only [SpriteHits, State.spriteCovers, Memory.getAll_getElem, Memory.getAll_length, exists_prop]
  rfl

/-- What the sprite of a DRW does to the screen: the pixels it covers are flipped and no other, and the collision is that one
of them was on. -/
theorem State.drawn_spec (s : State) (x y : Reg) (n : BitVec 4) :
    (∀ r c,
      (s.spriteCovers (s.readV x) (s.readV y) s.i.toNat n.toNat r c →
        pixelOf (s.drawn x y n).fb r c = !s.pixel r c) ∧
      (¬ s.spriteCovers (s.readV x) (s.readV y) s.i.toNat n.toNat r c →
        pixelOf (s.drawn x y n).fb r c = s.pixel r c)) ∧
    ((s.drawn x y n).collision = true ↔
      ∃ r c, s.spriteCovers (s.readV x) (s.readV y) s.i.toNat n.toNat r c ∧ s.pixel r c = true) := by
  have hlen : (Memory.getAll s.mem s.indexAddress n.toNat).length ≤ 32 := by
    rw [Memory.getAll_length]
    omega
  obtain ⟨hpixel, hcollision⟩ := plotSprite_spec (s.readV x).toNat (s.readV y).toNat
    (Memory.getAll s.mem s.indexAddress n.toNat) hlen { fb := s.fb, collision := false }
  simp only [spriteHits_getAll_iff] at hpixel hcollision
  exact ⟨hpixel, hcollision.trans (or_iff_right Bool.false_ne_true)⟩

/-- Settles O32, by whether the sprite lies in memory; the pixels and VF are those of `State.drawn_spec`. -/
theorem drwXorsTheSprite : Obligations.DrwXorsTheSprite := by
  refine fun x y n s => ⟨fun hin => ?_, exec_drw_outside⟩
  obtain ⟨hpixel, hcollision⟩ := s.drawn_spec x y n
  refine ⟨_, exec_drw_inside hin, rfl, hpixel, fun hon => ?_, fun hoff => ?_, fun r hr => ?_⟩
  · rw [State.readV_advance, State.readV_writeV_self, hcollision.mpr hon]
    rfl
  · have hnone : (s.drawn x y n).collision = false := by
      rw [Bool.eq_false_iff, Ne, hcollision]
      rintro ⟨r, c, hcovered, hon⟩
      exact Bool.false_ne_true ((hoff r c hcovered).symm.trans hon)
    rw [State.readV_advance, State.readV_writeV_self, hnone]
    rfl
  · exact State.readV_writeV_of_ne _ _ (beq_false_of_ne hr)

/-! ### A second draw -/

/-- Which pixels a sprite covers is decided by memory alone. -/
theorem State.spriteCovers_of_mem_eq {s t : State} (h : t.mem = s.mem) : t.spriteCovers = s.spriteCovers := by
  unfold State.spriteCovers State.byteAt
  rw [h]

/-- Settles O33: the second draw covers the pixels that the first one covered, so it flips them back, and it meets a pixel that
is on exactly where the first turned one on. -/
theorem drwTwiceRestoresTheScreen : Obligations.DrwTwiceRestoresTheScreen := by
  intro x y n s t hin hfirst hx hy
  obtain ⟨t', hfirst', hframe, hflip, -⟩ := (drwXorsTheSprite x y n s).1 hin
  cases hfirst.symm.trans hfirst'
  have hi : t.i = s.i := by rw [hframe]
  have hmem : t.mem = s.mem := by rw [hframe]
  obtain ⟨u, hsecond, -, hflipBack, hvfOne, hvfZero, -⟩ := (drwXorsTheSprite x y n t).1 (by rwa [hi])
  rw [State.spriteCovers_of_mem_eq hmem, hx, hy, hi] at hflipBack hvfOne hvfZero
  refine ⟨u, hsecond, fb_ext _ _ fun r c => ?_, fun ⟨r, c, hoff, hon⟩ => ?_, fun hkept => ?_⟩
  · by_cases hcovered : s.spriteCovers (s.readV x) (s.readV y) s.i.toNat n.toNat r c
    · calc u.pixel r c = !t.pixel r c := (hflipBack r c).1 hcovered
        _ = !!s.pixel r c := by rw [(hflip r c).1 hcovered]
        _ = s.pixel r c := Bool.not_not _
    · exact ((hflipBack r c).2 hcovered).trans ((hflip r c).2 hcovered)
  · refine hvfOne ⟨r, c, ?_, hon⟩
    by_contra hcovered
    exact Bool.false_ne_true (hoff.symm.trans (((hflip r c).2 hcovered).symm.trans hon))
  · refine hvfZero fun r c hcovered => ?_
    cases hs : s.pixel r c
    · exact hkept r c hs
    · rw [(hflip r c).1 hcovered, hs]
      rfl

end Sys2Proof.Machine
end

section
/-! SUPPORT. The family of 44_keypad_timers.md: the skips on a key (R200, R201), the key wait (R202) in one execution and over a
whole Tick, and the moves between a register and the timers (R203 to R205). -/

namespace Sys2Proof.Machine

/-! ### LD Vx, K -/

/-- LD Vx, K with a key down takes the lowest one and ends the wait (44_keypad_timers.md R202, D21). -/
theorem exec_ldVxK_of_lowest (x : Reg) {s : State} {k : Key} (hk : s.keyDown k = true)
    (hlow : ∀ l : Key, l.val < k.val → s.keyDown l = false) :
    exec (.ldVxK x) s = .next (State.advance { s.writeV x (BitVec.ofNat 8 k.val) with wait := false }) := by
  simp only [exec, execLdVxK, lowestDown_eq s k hk hlow]

/-- LD Vx, K with no key down sets the wait flag and nothing else (44_keypad_timers.md R202). -/
theorem exec_ldVxK_of_none (x : Reg) {s : State} (h : ∀ k : Key, s.keyDown k = false) :
    exec (.ldVxK x) s = .next { s with wait := true } := by
  simp only [exec, execLdVxK, (lowestDown_none s).mpr h]

/-- The number of a key fits a byte. -/
theorem byte_ofNat_key_toNat (k : Key) : (BitVec.ofNat 8 k.val).toNat = k.val := by
  rw [BitVec.toNat_ofNat]
  omega

/-- Settles O35, by whether a key is down. -/
theorem keyWaitTakesLowestKeyOrHolds : Obligations.KeyWaitTakesLowestKeyOrHolds := by
  refine fun x s => ⟨fun k hk hlow => ⟨_, exec_ldVxK_of_lowest x hk hlow, rfl, ?_, fun r hr => ?_⟩, exec_ldVxK_of_none x⟩
  · exact (congrArg _ (s.readV_writeV_self x _)).trans (byte_ofNat_key_toNat k)
  · exact s.readV_writeV_of_ne _ (beq_false_of_ne hr)

/-! ### A Tick in a key wait -/

/-- The first of a Tick's Steps, where it neither faults nor reports, leaves the other Steps to do. -/
theorem runSlots_succ_of_next {s t : State} (h : step s = .next t) (ht : t.fault = none) (he : s.stepEvent = none)
    (n : Nat) (events : List UnknownOpcode) : runSlots (n + 1) events s = runSlots n events t := by
  simp only [runSlots, h, ht, he, Option.isSome_none, Option.toList_none, List.append_nil, Bool.false_eq_true, if_false]

/-- The Steps of a Tick leave a state alone that one Step answers itself, without a report. -/
theorem runSlots_of_step_eq_self {s : State} (h : step s = .next s) (hf : s.fault = none) (he : s.stepEvent = none)
    (n : Nat) (events : List UnknownOpcode) : runSlots n events s = (events, s) := by
  induction n with
  | zero => rfl
  | succ n ih => exact (runSlots_succ_of_next h hf he n events).trans ih

/-- A Tick whose Steps end without a fault is those Steps, then the ageing of the timers (45_step_tick_host.md R222). -/
theorem tick_of_runSlots {n : Nat} {s u : State} {events : List UnknownOpcode} (hs : s.fault = none)
    (hrun : runSlots n [] s = (events, u)) (hu : u.fault = none) :
    tick n s = (.ok u.drawFlag events, u.ageTimers) := by
  simp only [tick, hs, hrun, hu]

/-- The Steps of a Tick that starts at an LD Vx, K with no key down: the first sets the wait flag, and each further one finds
the same instruction and the same keys, so it answers the state it is given. -/
theorem runSlots_of_keyWait {x : Reg} {w : Word} {s : State} (hf : s.fault = none) (hw : s.fetchWord = some w)
    (hd : decode w = .ok (.ldVxK x)) (hk : ∀ k : Key, s.keyDown k = false) (speed : Nat) :
    runSlots (speed + 1) [] s = ([], { s with wait := true }) := by
  have hfirst : step s = .next { s with wait := true } := (step_exec s w _ hf hw hd).trans (exec_ldVxK_of_none x hk)
  have hagain : step { s with wait := true } = .next { s with wait := true } :=
    (step_exec { s with wait := true } w _ hf hw hd).trans (exec_ldVxK_of_none x hk)
  calc runSlots (speed + 1) [] s
      = runSlots speed [] { s with wait := true } :=
        runSlots_succ_of_next hfirst hf (stepEvent_ok s hf w _ hw hd) speed []
    _ = ([], { s with wait := true }) :=
        runSlots_of_step_eq_self hagain hf (stepEvent_ok { s with wait := true } hf w _ hw hd) speed []

/-- Settles O36: the Steps of the Tick only set the wait flag, and then the timers are aged. -/
theorem keyWaitTickOnlyAgesTimers : Obligations.KeyWaitTickOnlyAgesTimers := by
  intro x w s speed hf hw hd hk
  have htick := tick_of_runSlots hf (runSlots_of_keyWait hf hw hd hk speed) (u := { s with wait := true }) hf
  exact ⟨_, htick, rfl, age_toNat s.dt, age_toNat s.st⟩

/-! ### Skips and timers -/

/-- Settles O34, by whether the key is down: SKP skips on that bit and SKNP on its negation. -/
theorem keySkips : Obligations.KeySkips := by
  intro x k s hk
  obtain rfl := eq_selectedKey hk
  exact ⟨fun h => ⟨congrArg _ (s.skipIf_of_true h), congrArg _ (s.skipIf_of_false (congrArg not h))⟩,
    fun h => ⟨congrArg _ (s.skipIf_of_false h), congrArg _ (s.skipIf_of_true (congrArg not h))⟩⟩

/-- Settles O37: the read of the delay timer is one write to Vx, the loads are one write to the timer. -/
theorem timerMoves : Obligations.TimerMoves := fun x s =>
  ⟨⟨(s.writeV x s.dt).advance, rfl, rfl, fun r => s.readV_writeV x r s.dt⟩, rfl, rfl⟩

end Sys2Proof.Machine
end

section
/-! SUPPORT. The family of 45_step_tick_host.md: one Step (R221), the Tick as its Steps and then the ageing of the timers (R222,
R223), and the operations and outputs of the host (R224 to R228). -/

namespace Sys2Proof.Machine

/-! ### The Step -/

/-- Settles O1, by whether the fetch lies in memory and then by what the word decodes to. -/
theorem stepFetchesDecodesExecutes : Obligations.StepFetchesDecodesExecutes := by
  intro s hs
  refine ⟨fun hout => ?_, fun hin w hw => ?_⟩
  · have hf := s.fetchWord_none hout
    exact ⟨step_fetch_fault s hs hf, stepEvent_none_of_fetch s hs hf⟩
  · have hf : s.fetchWord = some w := hw ▸ s.fetchWord_some hin
    exact ⟨fun i hd => ⟨step_exec s w i hs hf hd, stepEvent_ok s hs w i hf hd⟩,
      fun e hd => ⟨step_unrecognised s w e hs hf hd, stepEvent_err s hs w e hf hd⟩⟩

/-- A Step that takes a fault reports nothing: an unrecognised word only moves pc (30_encoding.md R100). -/
theorem stepEvent_none_of_faulting {s t : State} {f : Fault} (h : step s = .next t) (ht : t.fault = some f) :
    s.stepEvent = none := by
  obtain ⟨hs, ⟨hf, -⟩ | ⟨w, e, -, -, rfl⟩ | ⟨w, i, hf, hd, -⟩⟩ := step_cases s t h
  · exact stepEvent_none_of_fetch s hs hf
  · rw [State.advance_fault, hs] at ht
    cases ht
  · exact stepEvent_ok s hs w i hf hd

/-- Placing a word inside memory writes its two bytes at pc. -/
theorem State.placeWord_inside {s : State} (w : Word) (h : s.pc.toNat + 1 < 4096) :
    s.placeWord w = { s with mem := Memory.putAll s.mem s.pc.toNat [highByte w, lowByte w] } := if_pos h

/-- The two bytes of a word decode to what the word decodes to. -/
theorem decodeTableWord_16 {w : Word} {i : Instr} (h : decode w = .ok i) : decodeTableWord 16 w.toNat = some i := by
  rw [decodeTableWord, tableWord_16, decodeBytes_cons, wordOfBytes_high_low, h]
  rfl

/-- Settles O58: the placed word is the one fetched, and placing it is one write of two bytes. -/
theorem placedWordIsRunNext : Obligations.PlacedWordIsRunNext := by
  intro s w i hs hin hd
  have hfetch := s.fetchWord_placeWord w hin
  rw [State.withFetchWord, tableWord_16]
  rw [State.placeWord_inside w hin] at hfetch ⊢
  refine ⟨step_exec _ w i hs hfetch hd, rfl, fun a ha => ?_, decodeTableWord_16 hd⟩
  exact Memory.get_putAll_outside _ _ _ _ (by simp only [List.length_cons, List.length_nil]; omega)

/-! ### The Tick -/

/-- The result of a Tick with further reports in front of its own. -/
def TickResult.withEventsFirst (events : List UnknownOpcode) : TickResult → TickResult
  | .ok pending later => .ok pending (events ++ later)
  | .err f later => .err f (events ++ later)

/-- A Tick whose first Step completes is the Tick of one Step fewer from there, with the first Step's report in front. -/
theorem tick_succ_of_running {s t : State} (hs : s.fault = none) (h : step s = .next t) (ht : t.fault = none) (n : Nat) :
    tick (n + 1) s = ((tick n t).1.withEventsFirst s.stepEvent.toList, (tick n t).2) := by
  have hrun : runSlots (n + 1) [] s = (s.stepEvent.toList ++ (runSlots n [] t).1, (runSlots n [] t).2) := by
    simp only [runSlots, h, ht, Option.isSome_none, Bool.false_eq_true, if_false, List.nil_append]
    exact runSlots_events n _ t
  simp only [tick, hs, ht, hrun]
  cases (runSlots n [] t).2.fault <;> rfl

/-- A Tick whose first Step faults ends there, without ageing (decision D27). -/
theorem tick_succ_of_faulting {s t : State} {f : Fault} (hs : s.fault = none) (h : step s = .next t)
    (ht : t.fault = some f) (n : Nat) : tick (n + 1) s = (.err f [], t) := by
  have hrun : runSlots (n + 1) [] s = ([], t) := by
    simp only [runSlots, h, ht, stepEvent_none_of_faulting h ht, Option.isSome_some, if_true]
    rfl
  simp only [tick, hs, hrun, ht]

/-- Settles O52: no Step, a first Step that completes, a first Step that faults, and a halted core. -/
theorem tickRunsItsStepsThenAges : Obligations.TickRunsItsStepsThenAges := by
  refine ⟨fun s hs => ⟨s.ageTimers, tick_zero s hs, rfl, age_toNat s.dt, age_toNat s.st⟩, fun s t speed hs h ht => ?_,
    fun s t speed f hs h ht => tick_succ_of_faulting hs h ht speed, fun s speed f hs => tick_halted s f hs speed⟩
  rw [tick_succ_of_running hs h ht speed]
  exact ⟨fun pending events u hu => by rw [hu]; rfl, fun f events u hu => by rw [hu]; rfl⟩

/-- A JP to its own address answers the state it is given (40_control.md R123). -/
theorem exec_jp_self {nnn : BitVec 12} {s : State} (h : s.pc.toNat = nnn.toNat) : exec (.jp nnn) s = .next s := by
  have hpc : zextAddr nnn = s.pc := BitVec.eq_of_toNat_eq ((zextAddr_toNat nnn).trans h.symm)
  rw [exec, execJp, hpc]
  rfl

/-- A Tick at a JP to its own address only ages the timers, at any speed. -/
theorem tick_of_jp_self {nnn : BitVec 12} {w : Word} {s : State} (hs : s.fault = none) (hf : s.fetchWord = some w)
    (hd : decode w = .ok (.jp nnn)) (hpc : s.pc.toNat = nnn.toNat) (speed : Nat) :
    tick speed s = (.ok s.drawFlag [], s.ageTimers) := by
  have hstep : step s = .next s := (step_exec s w _ hs hf hd).trans (exec_jp_self hpc)
  exact tick_of_runSlots hs (runSlots_of_step_eq_self hstep hs (stepEvent_ok s hs w _ hf hd) speed []) hs

/-- Settles O53, by induction on the count: a Tick leaves a state that spins at the same JP. -/
theorem spinningTicksCountTheTimersDown : Obligations.SpinningTicksCountTheTimersDown := by
  intro w nnn s speed count hs hf hd hpc
  induction count generalizing s with
  | zero => exact ⟨s, rfl, rfl, rfl, rfl⟩
  | succ count ih =>
    obtain ⟨t, hsession, hframe, hdt, hst⟩ := ih s.ageTimers hs hf hpc
    have htick : (operate (.tick speed) s).2 = s.ageTimers := congrArg Prod.snd (tick_of_jp_self hs hf hd hpc speed)
    refine ⟨t, ?_, hframe, ?_, ?_⟩
    · rw [List.replicate_succ, session, htick]
      exact hsession
    · rw [hdt, State.ageTimers_dt, age_toNat]
      omega
    · rw [hst, State.ageTimers_st, age_toNat]
      omega

/-! ### The other operations and the outputs -/

/-- LoadROM of at most 3584 bytes writes them from 0x200 on. -/
theorem operate_loadRom_of_le {bytes : List Byte} (s : State) (h : bytes.length ≤ 3584) :
    operate (.loadRom bytes) s = (.done, { s with mem := Memory.putAll s.mem 0x200 bytes }) := by
  rw [operate, loadRom, if_neg (Nat.not_lt.mpr h)]

/-- LoadROM of more than 3584 bytes is rejected. -/
theorem operate_loadRom_of_gt {bytes : List Byte} (s : State) (h : 3584 < bytes.length) :
    operate (.loadRom bytes) s = (.romTooLarge, s) := by
  rw [operate, loadRom, if_pos h]

/-- Settles O55, by the length of the ROM; an accepted one is one write of its bytes. -/
theorem loadRomWritesVerbatimOrRejects : Obligations.LoadRomWritesVerbatimOrRejects := fun bytes s =>
  ⟨fun hle => ⟨_, operate_loadRom_of_le s hle, rfl, fun j hj => Memory.get_putAll_inside s.mem 0x200 j bytes hj,
    fun a ha => Memory.get_putAll_outside s.mem 0x200 a bytes ha⟩, operate_loadRom_of_gt s⟩

/-- Different fault registers have different codes (10_state.md R33). -/
theorem faultCode_inj {f g : Option Fault} : faultCode f = faultCode g ↔ f = g := by
  rcases f with _ | _ | _ | _ <;> rcases g with _ | _ | _ | _ <;> decide

/-- The beep sounds while the sound timer is not 0. -/
theorem beep_iff (s : State) : beep s = true ↔ s.st.toNat ≠ 0 := by
  rw [beep, bne_iff_ne, ne_eq, ← BitVec.toNat_inj]
  rfl

/-- Settles O56: the operations are single writes, and each clause on the fault output compares two fault codes. -/
theorem hostOperationsAndOutputs : Obligations.HostOperationsAndOutputs := fun _ s =>
  ⟨rfl, rfl, rfl, beep_iff s, faultCode_inj (g := none), faultCode_inj (g := some .stackOverflow),
    faultCode_inj (g := some .stackUnderflow), faultCode_inj (g := some .memOutOfRange)⟩

/-! ### Reset -/

/-- The reset contents begin with the font. -/
theorem Memory.map_initial_range : (List.range 80).map Memory.initial = fontTable := rfl

/-- The reset contents beyond the font are 0. -/
theorem Memory.initial_of_ge {a : Nat} (h : 80 ≤ a) : Memory.initial a = 0 := by
  have hlen : fontTable.length ≤ a - Config.fontBase := h
  rw [Memory.initial, List.getElem?_eq_none hlen]
  rfl

/-- Settles O57: memory after Reset is its reset contents, and every other piece of state is a constant. -/
theorem resetPutsTableZ : Obligations.ResetPutsTableZ := by
  intro s
  refine ⟨hostReset s, rfl, fun r => ?_, rfl, rfl, rfl, rfl, rfl, Memory.map_initial_range, fun a => Memory.initial_of_ge,
    fun r c => ?_, fun k => ?_, rfl, rfl, rfl⟩
  · exact Vector.getElem_replicate _
  · simp only [State.pixel, hostReset, State.reset, Vector.getElem_replicate]
  · exact Vector.getElem_replicate _

end Sys2Proof.Machine
end

section
/-! SUPPORT. The family of 60_exceptions.md: when a Step takes which fault (R250 to R253), and the halted core (R258). The two
sources of a fault, the fetch and the instruction's condition in table X, are said once, in `step_fault_iff`. -/

namespace Sys2Proof.Machine

/-! ### When a Step takes which fault -/

/-- An instruction whose range leaves memory takes the range fault (R253). -/
theorem exec_of_rangeFault {i : Instr} {s : State} (h : rangeFault s i) :
    exec i s = .next { s with fault := some .memOutOfRange } := by
  cases i
  case drw => exact exec_drw_outside h
  case ldBVx => exact exec_ldBVx_outside h
  case ldIndVx => exact exec_ldIndVx_outside h
  case ldVxInd => exact exec_ldVxInd_outside h
  -- the rest access no memory
  all_goals exact h.elim

/-- An instruction under a fault's condition takes that fault, the converse of `exec_fault_cause`. -/
theorem exec_of_faultCause {i : Instr} {s : State} {f : Fault} (h : FaultCause s i f) :
    exec i s = .next { s with fault := some f } := by
  cases f with
  | stackOverflow =>
    obtain ⟨⟨nnn, rfl⟩, hfull⟩ := h
    exact exec_call_of_full nnn hfull
  | stackUnderflow =>
    obtain ⟨rfl, hempty⟩ := h
    exact (retPopsReturnAddress s).2 hempty
  | memOutOfRange => exact exec_of_rangeFault h

/-- An instruction takes a fault exactly under that fault's condition. -/
theorem exec_fault_iff {i : Instr} {s t : State} {f : Fault} (hs : s.fault = none) (h : exec i s = .next t) :
    t.fault = some f ↔ FaultCause s i f := by
  refine ⟨exec_fault_cause hs h, fun hcause => ?_⟩
  cases h.symm.trans (exec_of_faultCause hcause)
  rfl

/-- A Step takes a fault exactly when it cannot fetch, which is the range fault, or its instruction has that fault's
condition; an unrecognised word never faults (R255). -/
theorem step_fault_iff {s t : State} {f : Fault} (h : step s = .next t) :
    t.fault = some f ↔ (s.fetchWord = none ∧ f = .memOutOfRange) ∨
      ∃ w i, s.fetchWord = some w ∧ decode w = .ok i ∧ FaultCause s i f := by
  obtain ⟨hs, ⟨hf, rfl⟩ | ⟨w, e, hf, hd, rfl⟩ | ⟨w, i, hf, hd, hx⟩⟩ := step_cases s t h
  · simp [hf, eq_comm]
  · simp [hf, hd, hs]
  · simp [hf, hd, exec_fault_iff hs hx]

/-- The fetch fails exactly when the word's second byte lies beyond memory. -/
theorem State.fetchWord_eq_none_iff (s : State) : s.fetchWord = none ↔ 4096 ≤ s.pc.toNat + 1 := by
  refine ⟨fun hf => ?_, s.fetchWord_none⟩
  by_contra hin
  cases (s.fetchWord_some (by omega)).symm.trans hf

/-- Settles O4, by reading off the condition that `step_fault_iff` gives for each of the three faults. -/
theorem faultsAriseExactlyInTableX : Obligations.FaultsAriseExactlyInTableX := by
  intro s t _ h
  refine ⟨?_, ?_, ?_⟩
  · rw [step_fault_iff h]
    constructor
    · rintro (⟨-, hne⟩ | ⟨w, _, hf, hd, ⟨nnn, rfl⟩, hfull⟩)
      · cases hne
      · exact ⟨w, nnn, hf, hd, hfull⟩
    · rintro ⟨w, nnn, hf, hd, hfull⟩
      exact .inr ⟨w, _, hf, hd, ⟨nnn, rfl⟩, hfull⟩
  · rw [step_fault_iff h]
    constructor
    · rintro (⟨-, hne⟩ | ⟨w, _, hf, hd, rfl, hempty⟩)
      · cases hne
      · exact ⟨w, hf, hd, hempty⟩
    · rintro ⟨w, hf, hd, hempty⟩
      exact .inr ⟨w, _, hf, hd, rfl, hempty⟩
  · simp only [step_fault_iff h, s.fetchWord_eq_none_iff, and_true, FaultCause]

/-! ### The halted core -/

/-- No host operation but Reset writes the fault register of a halted core. -/
theorem operate_keeps_fault {op : HostOp} {s : State} {f : Fault} (hs : s.fault = some f) (hop : op ≠ .reset) :
    (operate op s).2.fault = some f := by
  cases op with
  | reset => exact absurd rfl hop
  | loadRom bytes =>
    rcases operate_loadRom_cases bytes s with hsame | ⟨-, hload⟩
    · rw [hsame]; exact hs
    · rw [hload]; exact hs
  | tick speed =>
    have hrefused : (operate (.tick speed) s).2 = s := congrArg Prod.snd (tick_halted s f hs speed)
    rw [hrefused]; exact hs
  | setKeys | snapshot | renderAck => exact hs

/-- Settles O5: the Step and the Tick refuse, the other operations leave the fault register, and Reset is a constant there. -/
theorem haltedUntilReset : Obligations.HaltedUntilReset := fun s f hs =>
  ⟨step_halted s f hs, tick_halted s f hs, fun _ => operate_keeps_fault hs, rfl⟩

end Sys2Proof.Machine
end
